-- ==== Sys2Proof/Config.lean ====
section
/-! DEFINITION. The implementation parameters of TCODEC (spec/00_scope.md rule R4): every one is fixed by the spec
but the propagation delay, which it leaves open and which nothing here reads. -/

namespace Sys2Proof.Config

/-- Bits in each of the two transmitted bytes (R4). -/
abbrev BYTE_W : Nat := 8

/-- Bits in the two's-complement temperature integer (R4). -/
abbrev Q_W : Nat := 9

/-- Fraction bits: one unit of the integer is 0.5 degrees Celsius (R4). -/
abbrev FRAC_BITS : Nat := 1

/-- Width of the PACK input port `enc_v` (R4, decision D7). -/
abbrev V_W : Nat := 16

/-- Width of the sign-extended UNPACK output port `dec_half` (R4, decision D6). -/
abbrev HALF_W : Nat := 16

/-- Left shift applied to the first byte on unpack (R4). -/
abbrev UNPACK_SHL : Nat := 1

/-- Logical right shift applied to the second byte on unpack (R4). -/
abbrev UNPACK_SHR : Nat := 7

/-- Right shift giving the high byte on pack (R4). -/
abbrev PACK_SHR : Nat := 1

/-- Left shift giving the low byte on pack (R4). -/
abbrev PACK_SHL : Nat := 7

/-- Least value of the 9-bit integer (R4). -/
abbrev Q_MIN : Int := -256

/-- Greatest value of the 9-bit integer (R4). -/
abbrev Q_MAX : Int := 255

/-- The propagation delay, a non-negative time whose value and unit the spec leaves open (R4, R88, decision D19).
It has no body, so nothing can be proved of its value; no rule and no definition of the model reads it (log 7). -/
opaque T_PD : NNRat

end Sys2Proof.Config
end

