-- ==== Sys2Proof/Machine/Flags.lean ====
section
/-! DEFINITION. Flags: TCODEC has none. It has no status flag, condition code, overflow or range indicator, validity bit
or error output (spec/10_state.md R14, decision D15), so no operation computes one. What stands here is the one
predicate for which a reader might expect a flag. It is the host's to test: "the hardware does not compute it and has no
output for it" (spec/00_scope.md R6). -/

namespace Sys2Proof.Machine

/-- `InRange9(n)`: `n` can be written as a 9-bit two's-complement number (spec/00_scope.md R6). -/
def inRange9 (n : Int) : Bool := decide (Config.Q_MIN ≤ n ∧ n ≤ Config.Q_MAX)

/-- `InRange9` as a proposition, for statements. -/
abbrev InRange9 (n : Int) : Prop := inRange9 n = true

end Sys2Proof.Machine
end

