-- ==== Sys2Proof/Word.lean ====
section
/-! DEFINITION. The bit vectors of the spec and the levels on a port. -/

namespace Sys2Proof

/-- One transmitted byte of the packed pair (spec/30_encoding.md R35). -/
abbrev Byte := BitVec 8

/-- The 9-bit two's-complement count of half degrees (spec/30_encoding.md R36). -/
abbrev Count := BitVec 9

/-- A 16-bit container of the count: `dec_half` or `enc_v` (spec/30_encoding.md R37). -/
abbrev Half := BitVec 16

/-- The 17-bit operation word, a notation of the spec (spec/30_encoding.md R41). -/
abbrev OpWord := BitVec 17

/-- What is on one bit of a port: a defined 0 or 1, or nothing defined (`none`: nobody drives the bit, or it depends
on a bit nobody drives). The undefined level is the spec's own: spec/10_state.md R12 and R17,
spec/93_implementation_defined.md U1. -/
abbrev Level := Option Bool

/-- The levels on a port of `w` bits; index 0 is bit 0, the least significant (spec/00_scope.md section 7.1). -/
abbrev Levels (w : Nat) := Vector Level w

end Sys2Proof
end

