-- ==== Sys2Proof/Syntax.lean ====
section
/-! DEFINITION. The operations of TCODEC, one constructor per row of spec/opcode_table.json. -/

namespace Sys2Proof

/-- One operation with its operand (spec/30_encoding.md R40, R41). The set is complete: spec/60_exceptions.md R74. -/
inductive Instr where
  /-- `UNPACK hi, lo`: format DEC, the operand is the packed pair (R40, R50). -/
  | unpack (hi lo : Byte)
  /-- `PACK v`: format ENC, the operand is the 16-bit integer (R40, R55). -/
  | pack (v : Half)
  deriving DecidableEq, Repr

/-- The operation is one of unit DEC; any other is one of unit ENC (spec/00_scope.md R1). -/
def Instr.onDec : Instr → Bool
  | .unpack _ _ => true
  | .pack _ => false

end Sys2Proof
end

