-- ==== Sys2Proof/Machine/Line.lean ====
section
/-! DEFINITION. The lines of a host program: the syntax of spec/30_encoding.md R44, with its operands and its
pseudo-operations, the operation word of R41, and the host's driving of a single input port (R12). -/

namespace Sys2Proof.Machine

/-- A byte operand of a line (R44): a literal, or a host wire. DESIGN CHOICE (log 6): the name of a recorded result is
its place in the host's record. -/
inductive ByteOperand where
  /-- A byte literal such as `0x19`. -/
  | lit (b : Byte)
  /-- A host wire that carries these levels (a byte from outside, some bits of which may be undefined, U1). -/
  | wire (l : Levels 8)
  /-- The high byte that the `k`-th recorded PACK gave (`enc_hi` routed to this operand). -/
  | hiOf (k : Nat)
  /-- The low byte that the `k`-th recorded PACK gave (`enc_lo` routed to this operand). -/
  | loOf (k : Nat)
  deriving DecidableEq, Repr

/-- A 16-bit operand of a line (R44). -/
inductive IntOperand where
  /-- A 16-bit literal. -/
  | lit (v : Half)
  /-- A host wire that carries these levels. -/
  | wire (l : Levels 16)
  /-- The `dec_half` that the `k`-th recorded UNPACK gave, routed to this operand. -/
  | halfOf (k : Nat)
  /-- The word `{hi, lo}` of the `k`-th recorded PACK, the `w` that `PACKW v -> w` names, routed to this operand. -/
  | wordOf (k : Nat)
  deriving DecidableEq, Repr

/-- A decimal temperature literal `mantissa / 10 ^ places`, in degrees Celsius: 25.3 is `⟨253, 1⟩` (R44 `PACKT`). -/
structure Decimal where
  mantissa : Int
  places   : Nat
  deriving DecidableEq, Repr

/-- What a line may ask of unit DEC (R44). -/
inductive DecOp where
  /-- `UNPACK hi, lo -> q`. -/
  | unpack (hi lo : ByteOperand)
  /-- The pseudo-operation `UNPACKW w -> q`, `w` a 16-bit literal. -/
  | unpackw (w : Half)
  deriving DecidableEq, Repr

/-- What a line may ask of unit ENC (R44). -/
inductive EncOp where
  /-- `PACK v -> hi, lo`. -/
  | pack (v : IntOperand)
  /-- The pseudo-operation `PACKT t -> hi, lo`, `t` a decimal temperature literal. -/
  | packt (t : Decimal)
  /-- The pseudo-operation `PACKW v -> w`. -/
  | packw (v : IntOperand)
  deriving DecidableEq, Repr

/-- One line of a host program. -/
inductive Line where
  /-- An operation word, given as a number (R41): the stimulus that the decoder reads. -/
  | word (n : Nat)
  /-- A line for unit DEC. -/
  | dec (d : DecOp)
  /-- A line for unit ENC. -/
  | enc (e : EncOp)
  /-- Two lines applied at the same moment, one on each unit (R44, spec/20_memory.md R30). -/
  | atOnce (d : DecOp) (e : EncOp)
  /-- The host puts these levels on `dec_hi` (R12) and performs no operation. -/
  | driveDecHi (l : Levels 8)
  /-- The host puts these levels on `dec_lo` (R12) and performs no operation. -/
  | driveDecLo (l : Levels 8)
  /-- The host puts these levels on `enc_v` (R12) and performs no operation. -/
  | driveEncV (l : Levels 16)
  deriving DecidableEq, Repr

end Sys2Proof.Machine
end

