-- ==== Sys2Proof/Machine/Format.lean ====
section
/-! DEFINITION. The data formats: the fixed-point scale (spec/00_scope.md R5, R6), the packed pair as one word
(spec/20_memory.md R22) and the decimal temperature literals of `PACKT` (spec/30_encoding.md R44). These are readings of
bits; the hardware computes none of them. -/

namespace Sys2Proof.Machine

/-- `TempOf(n) = n / 2`, the temperature in degrees Celsius that a count of half degrees stands for (R5). -/
def tempOf (n : Int) : ℚ := (n : ℚ) / 2

/-- The packed pair seen as one 16-bit word `{hi, lo}` (spec/20_memory.md R22). -/
def packedWord (hi lo : Byte) : Half := hi ++ lo

/-- The nine bits of the format in a pair, `{hi[7:0], lo[7]}` (spec/30_encoding.md R35). -/
def pairBits (hi lo : Byte) : Count := hi ++ lo.extractLsb' 7 1

/-- The low byte of a canonical pair whose fraction bit is `v[0]`, `{v[0], 0000000}` (spec/30_encoding.md R35). -/
def fracByte (v : Half) : Byte := v.extractLsb' 0 1 ++ 0#7

/-- The high byte of a packed word, `w[15:8]` (R44 `UNPACKW`). -/
def wordHi (w : Half) : Byte := w.extractLsb' 8 8

/-- The low byte of a packed word, `w[7:0]` (R44 `UNPACKW`). -/
def wordLo (w : Half) : Byte := w.extractLsb' 0 8

/-- `uint(lo[7])`, the fraction bit of a pair (spec/40_unpack.md R52). -/
def fracOf (lo : Byte) : Int := if lo.getLsbD 7 then 1 else 0

/-- The count of half degrees that a packed pair is the code of: `2 * sint(hi) + lo[7]` (spec/40_unpack.md R52). -/
def pairCount (hi lo : Byte) : Int := 2 * hi.toInt + fracOf lo

/-- A pair is canonical when `lo[6:0] = 0000000` (spec/42_codec_laws.md R61). -/
def canonicalLo (lo : Byte) : Bool := lo.extractLsb' 0 7 == 0#7

/-- The rational number that a decimal temperature literal denotes. -/
def Decimal.value (t : Decimal) : ℚ := (t.mantissa : ℚ) / 10 ^ t.places

/-- The literal `2*t` of `PACKT` when `t` is a multiple of 0.5 and representable, and nothing otherwise
(R44, spec/00_scope.md R6). -/
def Decimal.halfDegrees? (t : Decimal) : Option Int :=
  if (2 * t.mantissa) % (10 ^ t.places : Int) = 0 then
    let n := (2 * t.mantissa) / (10 ^ t.places : Int)
    if inRange9 n then some n else none
  else none

end Sys2Proof.Machine
end

