-- ==== Sys2Proof/WellFormed.lean ====
section
/-! DEFINITION. Well-formedness. Every operand of every operation is legal (spec/30_encoding.md R39, R41), so an
instruction has nothing to check; what can be ill-formed is a line of a host program, at the boundary of the block. -/

namespace Sys2Proof

/-- Every instruction is well-formed: "Every input is legal" (spec/30_encoding.md R39). -/
def Instr.wellFormed : Instr → Bool
  | .unpack _ _ => true
  | .pack _ => true

namespace Machine

/-- Every bit is a defined 0 or 1 (spec/93_implementation_defined.md U1). -/
def Levels.defined {w : Nat} (l : Levels w) : Bool := l.toList.all Option.isSome

/-- A byte operand is defined, when the host has recorded `nEnc` PACKs so far. -/
def ByteOperand.wellFormed (nEnc : Nat) : ByteOperand → Bool
  | .lit _ => true
  | .wire l => Levels.defined l
  | .hiOf k => decide (k < nEnc)
  | .loOf k => decide (k < nEnc)

/-- A 16-bit operand is defined, when the host has recorded `nDec` UNPACKs and `nEnc` PACKs so far. -/
def IntOperand.wellFormed (nDec nEnc : Nat) : IntOperand → Bool
  | .lit _ => true
  | .wire l => Levels.defined l
  | .halfOf k => decide (k < nDec)
  | .wordOf k => decide (k < nEnc)

def DecOp.wellFormed (nEnc : Nat) : DecOp → Bool
  | .unpack hi lo => hi.wellFormed nEnc && lo.wellFormed nEnc
  | .unpackw _ => true

/-- `PACKT` takes a multiple of 0.5 in the representable range only (spec/30_encoding.md R44). -/
def EncOp.wellFormed (nDec nEnc : Nat) : EncOp → Bool
  | .pack v => v.wellFormed nDec nEnc
  | .packt t =>
    decide ((2 * t.mantissa) % (10 ^ t.places : Int) = 0
      ∧ Config.Q_MIN * 10 ^ t.places ≤ 2 * t.mantissa ∧ 2 * t.mantissa ≤ Config.Q_MAX * 10 ^ t.places)
  | .packw v => v.wellFormed nDec nEnc

/-- A line can be applied when the host has recorded `nDec` UNPACKs and `nEnc` PACKs: its number is a 17-bit operation
word (R41), its operands are fully defined (U1), its temperature is representable (R44). -/
def Line.wellFormed (nDec nEnc : Nat) : Line → Bool
  | .word n => decide (n < 2 ^ 17)
  | .dec d => d.wellFormed nEnc
  | .enc e => e.wellFormed nDec nEnc
  | .atOnce d e => d.wellFormed nEnc && e.wellFormed nDec nEnc
  | .driveDecHi _ => true
  | .driveDecLo _ => true
  | .driveEncV _ => true

end Machine

end Sys2Proof
end

