-- ==== Sys2Proof/Decode.lean ====
section
/-! DEFINITION. The decoder of operation words, total on every number, and the encoder (spec/30_encoding.md R41, R42;
spec/opcode_table.json). -/

namespace Sys2Proof

/-- A row of the opcode map: `w` is the operation when `w & mask = match` (R42). -/
structure OpcodeRow where
  mnemonic : String
  mask     : OpWord
  pattern  : OpWord
  deriving DecidableEq, Repr

/-- Row UNPACK: `0hhhhhhhhfuuuuuuu` (R42). -/
def unpackRow : OpcodeRow := ⟨"UNPACK", 0x10000#17, 0x00000#17⟩

/-- Row PACK: `1uuuuuuuiiiiiiiif` (R42). -/
def packRow : OpcodeRow := ⟨"PACK", 0x10000#17, 0x10000#17⟩

/-- The opcode map (R42). -/
def opcodeTable : List OpcodeRow := [unpackRow, packRow]

def OpcodeRow.accepts (r : OpcodeRow) (w : OpWord) : Bool := w &&& r.mask == r.pattern

/-- The operation that a 17-bit operation word means. Total: "Every one of the 2^17 operation words is legal" (R41). -/
def decode (w : OpWord) : Instr :=
  if unpackRow.accepts w then .unpack (w.extractLsb' 8 8) (w.extractLsb' 0 8)
  else .pack (w.extractLsb' 0 16)

/-- Why a number is no operation. -/
inductive DecodeError where
  /-- It has more than 17 bits, so it is no operation word (R41). -/
  | notAnOperationWord (n : Nat)
  deriving DecidableEq, Repr

/-- The decoder on any number: a number below `2^17` is an operation word, any other is rejected by name (log 9). -/
def decodeWord (n : Nat) : Except DecodeError Instr :=
  if n < 2 ^ 17 then .ok (decode (BitVec.ofNat 17 n)) else .error (.notAnOperationWord n)

/-- The operation word of an instruction: bit 16 selects the unit, bits 15:0 are the operand (R41). -/
def encode : Instr → OpWord
  | .unpack hi lo => 0#1 ++ (hi ++ lo)
  | .pack v => 1#1 ++ v

/-- The instruction the decoder reads from an opcode-table word of `nbits` bits (bit 0 the least significant). The bits
that the third byte has above bit 16 belong to no operation word and must be zero (log 9). -/
def decodeTableWord (nbits w : Nat) : Option Instr :=
  match decodeWord (w % 2 ^ nbits) with
  | .ok i => some i
  | .error _ => none

end Sys2Proof
end

