-- ==== Sys2Proof/Machine/State.lean ====
section
/-! DEFINITION. The machine's state, the reasons a step can stop, and the state right after reset. -/

namespace Sys2Proof.Machine

/-- TCODEC's own storage: none. "In a model the whole machine state of TCODEC is the empty record"
(spec/10_state.md R10, R16). -/
structure Block where
  deriving DecidableEq, Repr

/-- One UNPACK as the host recorded it: the operands it drove and the two outputs (spec/70_reset_and_hazards.md R89). -/
structure DecRecord where
  hi   : Byte
  lo   : Byte
  q    : Count
  half : Half
  deriving DecidableEq, Repr

/-- One PACK as the host recorded it: the operand it drove and the two outputs (spec/70_reset_and_hazards.md R89). -/
structure EncRecord where
  v  : Half
  hi : Byte
  lo : Byte
  deriving DecidableEq, Repr

/-- The DEC port group (spec/10_state.md R12): what is on the input ports `dec_hi` and `dec_lo`, and what the host has
recorded of this unit, oldest first. The outputs `dec_q` and `dec_half` are functions of the inputs (Machine/Ops.lean). -/
structure DecUnit where
  hi  : Levels 8
  lo  : Levels 8
  log : List DecRecord
  deriving DecidableEq, Repr

/-- The ENC port group (spec/10_state.md R12): what is on the input port `enc_v`, and what the host has recorded of this
unit, oldest first. The outputs `enc_hi` and `enc_lo` are functions of the input (Machine/Ops.lean). -/
structure EncUnit where
  v   : Levels 16
  log : List EncRecord
  deriving DecidableEq, Repr

/-- The block (empty), its two port groups, and the lines that the host has still to apply, first one first
(spec/10_state.md R10, R12, R13; log 1). -/
structure State where
  block   : Block
  dec     : DecUnit
  enc     : EncUnit
  program : List Line
  deriving DecidableEq, Repr

/-- Why the machine stops with a fault: it never does. "In a model, a step of this block returns a next state ... it never
returns a fault" (spec/60_exceptions.md R70). So the type has no constructor; nothing raises one. -/
inductive Fault where
  deriving DecidableEq, Repr

/-- Why a step is refused. All but the first are refusals at the boundary, of a line of the host's program. -/
inductive Refusal where
  /-- Raised by `exec` for an instruction that has no meaning yet. Safe. No arm raises it: both have their meaning. -/
  | notModelled (mnemonic : String)
  /-- Raised by a line whose operand has a bit that is not a defined 0 or 1: "the model gives no meaning to an operand
  with a missing bit and must not substitute zero" (spec/93_implementation_defined.md U1). Safe. -/
  | undefinedOperand
  /-- Raised by a `PACKT` line whose literal is no representable multiple of 0.5: "refused by the notation, not by the
  hardware" (spec/30_encoding.md R44). Safe. -/
  | temperatureNotRepresentable
  /-- Raised by a `word` line whose number has more than 17 bits, so that it is no operation word
  (spec/30_encoding.md R41). Safe. -/
  | notAnOperationWord (n : Nat)
  deriving DecidableEq, Repr

/-- After reset or power-up: the block is empty (spec/70_reset_and_hazards.md R80), the host drives nothing yet
(spec/10_state.md R17: "the block gives them no default"; DESIGN CHOICE, log 2), has recorded nothing (DESIGN CHOICE,
log 1) and has no line to apply (DESIGN CHOICE, log 3). -/
def State.reset : State where
  block   := ⟨⟩
  dec     := ⟨Vector.replicate 8 none, Vector.replicate 8 none, []⟩
  enc     := ⟨Vector.replicate 16 none, []⟩
  program := []

end Sys2Proof.Machine
end

