-- ==== Sys2Proof/Machine/Ops.lean ====
section
/-! DEFINITION. The shared operations: levels on a port, the two converter functions, the output ports as functions of the
input ports, and the host's driving and recording. There is no memory to read or write (spec/20_memory.md R20) and no
exception to take or to return from (spec/60_exceptions.md R70, R73), so no operation here does either. -/

namespace Sys2Proof.Machine

/-- A fully defined vector on a port. -/
def Levels.ofBits {w : Nat} (x : BitVec w) : Levels w := Vector.ofFn fun i => some (x.getLsbD i)

/-- Nobody drives the port. -/
def Levels.undriven (w : Nat) : Levels w := Vector.replicate w none

/-- The vector on a port when every bit of it is a defined 0 or 1, and nothing otherwise: no value is put in place of an
undefined bit (spec/93_implementation_defined.md U1). -/
def Levels.value? {w : Nat} (l : Levels w) : Option (BitVec w) :=
  if l.toList.all Option.isSome then some (BitVec.ofFnLE fun i => l[i] == some true) else none

/-! The two converter functions, from the pseudocode of the spec. -/

/-- `dec_q`: `(zext_9(hi) << 1) | zext_9(lo >> 7)` (spec/40_unpack.md R50). -/
def unpackQ (hi lo : Byte) : Count :=
  (hi.setWidth 9 <<< Config.UNPACK_SHL) ||| (lo >>> Config.UNPACK_SHR).setWidth 9

/-- `dec_half`: `sext_16(q)` (spec/40_unpack.md R50, R51). -/
def unpackHalf (hi lo : Byte) : Half := (unpackQ hi lo).signExtend 16

/-- `enc_hi`: `trunc_8(v >> 1)` (spec/41_pack.md R55). -/
def packHi (v : Half) : Byte := (v >>> Config.PACK_SHR).setWidth 8

/-- `enc_lo`: `trunc_8(v << 7)` (spec/41_pack.md R55). -/
def packLo (v : Half) : Byte := (v <<< Config.PACK_SHL).setWidth 8

/-! The output ports, bit by bit from the input ports: the tables of spec/10_state.md R12 and spec/30_encoding.md R38. An
output bit that depends on an undefined input bit is undefined; any other is defined (spec/93_implementation_defined.md
U1, spec/10_state.md R17). -/

/-- `dec_q[i+1] = dec_hi[i]`, `dec_q[0] = dec_lo[7]` (R12). -/
def DecUnit.qOut (d : DecUnit) : Levels 9 :=
  Vector.ofFn fun i : Fin 9 => if i.val = 0 then d.lo[7] else d.hi[i.val - 1]

/-- `dec_half[8:0] = dec_q`, `dec_half[15:9]` seven copies of `dec_hi[7]` (R12). -/
def DecUnit.halfOut (d : DecUnit) : Levels 16 :=
  Vector.ofFn fun i : Fin 16 => if h : i.val < 9 then d.qOut[i.val] else d.hi[7]

/-- `enc_hi[i] = enc_v[i+1]` (R12). -/
def EncUnit.hiOut (e : EncUnit) : Levels 8 :=
  Vector.ofFn fun i : Fin 8 => e.v[i.val + 1]

/-- `enc_lo[7] = enc_v[0]`; `enc_lo[6:0]` depends on nothing and is zero, whatever the host drives (R12, R17). -/
def EncUnit.loOut (e : EncUnit) : Levels 8 :=
  Vector.ofFn fun i : Fin 8 => if i.val = 7 then e.v[0] else some false

/-- Output port `dec_q[8:0]` (R12). Reading it has no side effect (spec/20_memory.md R24). -/
def State.decQ (s : State) : Levels 9 := s.dec.qOut

/-- Output port `dec_half[15:0]` (R12). -/
def State.decHalf (s : State) : Levels 16 := s.dec.halfOut

/-- Output port `enc_hi[7:0]` (R12). -/
def State.encHi (s : State) : Levels 8 := s.enc.hiOut

/-- Output port `enc_lo[7:0]` (R12). -/
def State.encLo (s : State) : Levels 8 := s.enc.loOut

/-! The host at the ports. -/

/-- The host puts levels on `dec_hi`; nothing changes but what depends on them (R12, spec/20_memory.md R24). -/
def State.driveDecHi (s : State) (l : Levels 8) : State := { s with dec := { s.dec with hi := l } }

/-- The host puts levels on `dec_lo`. -/
def State.driveDecLo (s : State) (l : Levels 8) : State := { s with dec := { s.dec with lo := l } }

/-- The host puts levels on `enc_v`. -/
def State.driveEncV (s : State) (l : Levels 16) : State := { s with enc := { s.enc with v := l } }

/-- The host records an UNPACK at the end of its list (spec/70_reset_and_hazards.md R89; log 1). -/
def State.recordDec (s : State) (r : DecRecord) : State := { s with dec := { s.dec with log := s.dec.log ++ [r] } }

/-- The host records a PACK at the end of its list (spec/70_reset_and_hazards.md R89; log 1). -/
def State.recordEnc (s : State) (r : EncRecord) : State := { s with enc := { s.enc with log := s.enc.log ++ [r] } }

end Sys2Proof.Machine
end

