-- ==== Sys2Proof/Machine/Pack.lean ====
section
/-! DEFINITION. Unit ENC: the meaning of PACK (spec/41_pack.md). -/

namespace Sys2Proof.Machine

/-- PACK (R55): the host drives the integer on `enc_v` and records the two outputs. An operand outside -256 to 255 wraps
silently (R57): no flag, no fault, no saturation. It touches no port of the other unit (spec/10_state.md R11, R12). -/
def execPack (v : Half) (s : State) : Host.Outcome State Fault Refusal :=
  .next ((s.driveEncV (Levels.ofBits v)).recordEnc ⟨v, packHi v, packLo v⟩)

end Sys2Proof.Machine
end

