-- ==== Sys2Proof/Machine/Unpack.lean ====
section
/-! DEFINITION. Unit DEC: the meaning of UNPACK (spec/40_unpack.md). -/

namespace Sys2Proof.Machine

/-- UNPACK (R50): the host drives the pair on `dec_hi` and `dec_lo`, most significant byte first (spec/20_memory.md R21),
and records the two outputs. It writes no flag and raises nothing, for any operand; it validates nothing (R53); it touches
no port of the other unit (spec/10_state.md R11, R12). -/
def execUnpack (hi lo : Byte) (s : State) : Host.Outcome State Fault Refusal :=
  .next ((((s.driveDecHi (Levels.ofBits hi)).driveDecLo (Levels.ofBits lo))).recordDec
    ⟨hi, lo, unpackQ hi lo, unpackHalf hi lo⟩)

end Sys2Proof.Machine
end

