-- ==== Sys2Proof/Machine/Dispatch.lean ====
section
/-! DEFINITION. One arm per operation. -/

namespace Sys2Proof.Machine

def exec (i : Instr) (s : State) : Host.Outcome State Fault Refusal :=
  match i with
  | .unpack hi lo => Sys2Proof.Machine.execUnpack hi lo s
  | .pack v => Sys2Proof.Machine.execPack v s

end Sys2Proof.Machine
end

