-- ==== Sys2Proof/Machine/Operands.lean ====
section
/-! DEFINITION. The operands of a line and the instruction a line stands for (spec/30_encoding.md R44): literals, host
wires, routed results, and the three pseudo-operations by their expansions. -/

namespace Sys2Proof.Machine

/-- The result word `w = {hi, lo}` that `PACKW` names (R44). -/
def EncRecord.word (r : EncRecord) : Half := packedWord r.hi r.lo

/-- The levels that a byte operand puts on its port. A name that no result has been recorded under is a wire nobody
drives (log 6). -/
def ByteOperand.levels (s : State) : ByteOperand → Levels 8
  | .lit b => Levels.ofBits b
  | .wire l => l
  | .hiOf k => match s.enc.log[k]? with
    | some r => Levels.ofBits r.hi
    | none => Levels.undriven 8
  | .loOf k => match s.enc.log[k]? with
    | some r => Levels.ofBits r.lo
    | none => Levels.undriven 8

/-- The levels that a 16-bit operand puts on its port; a name `q` is the value of `dec_half`, and a name
`w` that `PACKW` gave is the word `{hi, lo}` (R44). -/
def IntOperand.levels (s : State) : IntOperand → Levels 16
  | .lit v => Levels.ofBits v
  | .wire l => l
  | .halfOf k => match s.dec.log[k]? with
    | some r => Levels.ofBits r.half
    | none => Levels.undriven 16
  | .wordOf k => match s.enc.log[k]? with
    | some r => Levels.ofBits r.word
    | none => Levels.undriven 16

/-- `UNPACK` of two operands, refused when a bit of either is undefined (spec/93_implementation_defined.md U1). -/
def unpackOf (hi lo : Levels 8) : Except Refusal Instr :=
  match Levels.value? hi, Levels.value? lo with
  | some h, some l => .ok (.unpack h l)
  | _, _ => .error .undefinedOperand

/-- `PACK` of an operand, refused when a bit of it is undefined (U1). -/
def packOf (v : Levels 16) : Except Refusal Instr :=
  match Levels.value? v with
  | some v => .ok (.pack v)
  | none => .error .undefinedOperand

/-- The instruction that a DEC line stands for: `UNPACKW w` is `UNPACK w[15:8], w[7:0]` (R44). -/
def DecOp.instr (s : State) : DecOp → Except Refusal Instr
  | .unpack hi lo => unpackOf (hi.levels s) (lo.levels s)
  | .unpackw w => .ok (.unpack (wordHi w) (wordLo w))

/-- The instruction that an ENC line stands for: `PACKT t` is `PACK trunc_16(2*t)`, `PACKW v` is `PACK v` (R44). -/
def EncOp.instr (s : State) : EncOp → Except Refusal Instr
  | .pack v => packOf (v.levels s)
  | .packt t => match t.halfDegrees? with
    | some n => .ok (.pack (BitVec.ofInt 16 n))
    | none => .error .temperatureNotRepresentable
  | .packw v => packOf (v.levels s)

end Sys2Proof.Machine
end

