-- ==== Sys2Proof/Machine/Apply.lean ====
section
/-! DEFINITION. Applying one line of a host program (spec/30_encoding.md R41, R44). -/

namespace Sys2Proof.Machine

/-- Perform the operation that a line stands for, or refuse the line by name. -/
def applyInstr (i : Except Refusal Instr) (s : State) : Host.Outcome State Fault Refusal :=
  match i with
  | .ok i => exec i s
  | .error r => .refused r

/-- The instruction that a `word` line stands for. -/
def wordInstr (n : Nat) : Except Refusal Instr :=
  match decodeWord n with
  | .ok i => .ok i
  | .error (.notAnOperationWord n) => .error (.notAnOperationWord n)

/-- Two operations at the same moment, one on each unit. Both operands are what they are BEFORE the moment. The units share
nothing (spec/20_memory.md R30), so the order in which the model writes the two down does not matter (log 8). -/
def applyBoth (i j : Except Refusal Instr) (s : State) : Host.Outcome State Fault Refusal :=
  match i, j with
  | .ok i, .ok j => match exec i s with
    | .next t => exec j t
    | .fault f => .fault f
    | .refused r => .refused r
  | .error r, _ => .refused r
  | .ok _, .error r => .refused r

/-- Apply one line. A line that drives a single port performs no operation and records nothing (log 10). -/
def applyLine (l : Line) (s : State) : Host.Outcome State Fault Refusal :=
  match l with
  | .word n => applyInstr (wordInstr n) s
  | .dec d => applyInstr (d.instr s) s
  | .enc e => applyInstr (e.instr s) s
  | .atOnce d e => applyBoth (d.instr s) (e.instr s) s
  | .driveDecHi l => .next (s.driveDecHi l)
  | .driveDecLo l => .next (s.driveDecLo l)
  | .driveEncV l => .next (s.driveEncV l)

/-- Perform a list of operations one after another, stopping at the first that does not answer a next state. -/
def execAll : List Instr → State → Host.Outcome State Fault Refusal
  | [], s => .next s
  | i :: is, s => match exec i s with
    | .next t => execAll is t
    | .fault f => .fault f
    | .refused r => .refused r

end Sys2Proof.Machine
end

