-- ==== Sys2Proof/Machine/Step.lean ====
section
/-! DEFINITION. One step: the host applies the next line of its program (spec/10_state.md R13). -/

namespace Sys2Proof.Machine

/-- The host applies the first of its remaining lines. "A sequence of operations is over when its last line has been
applied" (spec/70_reset_and_hazards.md R89): with no line left nothing happens (DESIGN CHOICE, log 4). -/
def step (s : State) : Host.Outcome State Fault Refusal :=
  match s.program with
  | [] => .next s
  | l :: rest => applyLine l { s with program := rest }

/-- The operation word `w` (of `nbits` bits, bit 0 the least significant) as the next line that the host applies (log 3). -/
def State.withFetchWord (s : State) (nbits w : Nat) : State :=
  { s with program := .word (w % 2 ^ nbits) :: s.program }

end Sys2Proof.Machine
end

