-- ==== Sys2Proof/Safety.lean ====
section
/-! DEFINITION. What counts as a safe step, and what it means that the host's record is right. -/

namespace Sys2Proof.Machine

/-- The next line can be applied: it is well-formed for what the host has recorded so far. With no line left nothing is
asked (log 4). -/
def State.lineReady (s : State) : Bool :=
  match s.program with
  | [] => true
  | l :: _ => l.wellFormed s.dec.log.length s.enc.log.length

/-- The host puts the defined byte `b` on an operand's port: a literal `b`, a wire that carries it, or the name of a recorded
result that is `b` (spec/30_encoding.md R44; names as places, log 6). -/
def ByteOperand.Carries (s : State) (b : Byte) : ByteOperand → Prop
  | .lit c => c = b
  | .wire l => l = Levels.ofBits b
  | .hiOf k => ∃ r, s.enc.log[k]? = some r ∧ r.hi = b
  | .loOf k => ∃ r, s.enc.log[k]? = some r ∧ r.lo = b

/-- The host puts the defined integer `v` on an operand's port (spec/30_encoding.md R44; names as places, log 6). -/
def IntOperand.Carries (s : State) (v : Half) : IntOperand → Prop
  | .lit c => c = v
  | .wire l => l = Levels.ofBits v
  | .halfOf k => ∃ r, s.dec.log[k]? = some r ∧ r.half = v
  | .wordOf k => ∃ r, s.enc.log[k]? = some r ∧ packedWord r.hi r.lo = v

/-- Some bit of a byte operand is not a defined 0 or 1 (spec/93_implementation_defined.md U1): a wire with such a bit, or a
name under which nothing is recorded (log 6). A literal is always defined. -/
def ByteOperand.Undefined (s : State) : ByteOperand → Prop
  | .lit _ => False
  | .wire l => ∃ (i : Nat) (h : i < 8), l[i] = none
  | .hiOf k => s.enc.log.length ≤ k
  | .loOf k => s.enc.log.length ≤ k

/-- Some bit of a 16-bit operand is not a defined 0 or 1 (spec/93_implementation_defined.md U1; log 6). -/
def IntOperand.Undefined (s : State) : IntOperand → Prop
  | .lit _ => False
  | .wire l => ∃ (i : Nat) (h : i < 16), l[i] = none
  | .halfOf k => s.dec.log.length ≤ k
  | .wordOf k => s.enc.log.length ≤ k

/-- A recorded UNPACK obeys the codec's arithmetic: the 9-bit count is twice the signed high byte plus the fraction bit
(spec/40_unpack.md R52), and the 16-bit output is the same integer (spec/40_unpack.md R51). -/
def DecRecord.Lawful (r : DecRecord) : Prop :=
  r.q.toInt = pairCount r.hi r.lo ∧ r.half.toInt = r.q.toInt

/-- A recorded PACK obeys the codec's arithmetic: its pair is canonical (spec/42_codec_laws.md R61) and encodes the operand
modulo 512 (spec/42_codec_laws.md R63), exactly when the operand is in range (spec/41_pack.md R56, R57). -/
def EncRecord.Lawful (r : EncRecord) : Prop :=
  canonicalLo r.lo = true ∧ pairCount r.hi r.lo % 512 = r.v.toInt % 512 ∧
    (pairCount r.hi r.lo = r.v.toInt ↔ InRange9 r.v.toInt)

/-- Every result the host has recorded obeys the codec's arithmetic. -/
def State.RecordsLawful (s : State) : Prop :=
  (∀ r ∈ s.dec.log, r.Lawful) ∧ (∀ r ∈ s.enc.log, r.Lawful)

end Sys2Proof.Machine
end

