-- ==== Sys2Proof/Certificates/Slice0/Obligations.lean ====
section
/-! DEFINITION. The statements for the provers. Results are read on the output ports of spec/10_state.md R12
(`State.decQ`, `decHalf`, `encHi`, `encLo`), never through the converter functions that the meanings call. -/

open Sys2Proof Sys2Proof.Machine

/-! ## The two operations -/

/-- spec/40_unpack.md R50: for every operand UNPACK completes; its operation word is `0hhhhhhhhfuuuuuuu`; `dec_q` is
`(zext_9(hi) << 1) | zext_9(lo >> 7)`, which equals `{hi[7:0], lo[7]}`; `dec_half` is its sign extension; read as two's
complement the count is `2 * sint(hi) + lo[7]`. -/
def Obligations.UnpackGivesTheSignedHalfDegreeCount : Prop :=
  ∀ (hi lo : Byte) (s : State), ∃ t, exec (.unpack hi lo) s = .next t ∧
    t.decQ = Levels.ofBits ((hi.setWidth 9 <<< 1) ||| (lo >>> 7).setWidth 9) ∧
    t.decQ = Levels.ofBits (pairBits hi lo) ∧
    t.decHalf = Levels.ofBits ((pairBits hi lo).signExtend 16) ∧
    (pairBits hi lo).toInt = 2 * hi.toInt + fracOf lo ∧
    decodeWord (hi.toNat * 256 + lo.toNat) = .ok (.unpack hi lo)

/-- spec/40_unpack.md R51, conflict C1: `dec_half` is the sign extension of `dec_q`, so a pair whose high byte has bit 7 set
unpacks to a negative integer, 512 below the zero-extended reading; otherwise the two readings agree. -/
def Obligations.UnpackSignExtendsNegativeTemperatures : Prop :=
  ∀ (hi lo : Byte) (s : State), ∃ (t : State) (q : Count) (h : Half), exec (.unpack hi lo) s = .next t ∧
    t.decQ = Levels.ofBits q ∧ t.decHalf = Levels.ofBits h ∧ h = q.signExtend 16 ∧ h.toInt = q.toInt ∧
    (hi.getLsbD 7 = true → h.toInt < 0 ∧ h.toInt = (q.toNat : Int) - 512) ∧
    (hi.getLsbD 7 = false → 0 ≤ h.toInt ∧ h.toInt = (q.toNat : Int))

/-- spec/40_unpack.md R52: the high byte is the temperature in whole degrees rounded toward minus infinity and the fraction
bit adds half a degree. -/
def Obligations.UnpackReadsAsWholeDegreesPlusAHalf : Prop :=
  ∀ (hi lo : Byte) (s : State), ∃ (t : State) (q : Count), exec (.unpack hi lo) s = .next t ∧ t.decQ = Levels.ofBits q ∧
    q.extractLsb' 1 8 = hi ∧ q.extractLsb' 0 1 = lo.extractLsb' 7 1 ∧
    q.toInt = 2 * hi.toInt + ((lo.extractLsb' 7 1).toNat : Int) ∧
    tempOf q.toInt = (hi.toInt : ℚ) + (1 / 2 : ℚ) * ((lo.extractLsb' 7 1).toNat : ℚ) ∧
    ⌊tempOf q.toInt⌋ = hi.toInt

/-- spec/41_pack.md R55: for every operand PACK completes; its operation word is `1uuuuuuuiiiiiiiif`; `enc_hi` is
`trunc_8(v >> 1)`, which equals `v[8:1]` (with an arithmetic shift too); `enc_lo` is `trunc_8(v << 7)`, which equals
`{v[0], 0000000}`. -/
def Obligations.PackGivesTheBytePair : Prop :=
  ∀ (v : Half) (s : State), ∃ t, exec (.pack v) s = .next t ∧
    t.encHi = Levels.ofBits ((v >>> 1).setWidth 8) ∧ t.encHi = Levels.ofBits ((v.sshiftRight 1).setWidth 8) ∧
    t.encHi = Levels.ofBits (v.extractLsb' 1 8) ∧
    t.encLo = Levels.ofBits ((v <<< 7).setWidth 8) ∧ t.encLo = Levels.ofBits (fracByte v) ∧
    decodeWord (65536 + v.toNat) = .ok (.pack v)

/-- spec/41_pack.md R56: in range, the pair is the code of exactly that integer (whole degrees rounded toward minus infinity,
and the half-degree bit), it is canonical, and UNPACK of it returns the operand unchanged. -/
def Obligations.PackInRangeEncodesExactlyTheOperand : Prop :=
  ∀ (v : Half) (s : State), InRange9 v.toInt → ∃ (t : State) (hi lo : Byte) (u : State), exec (.pack v) s = .next t ∧
    t.encHi = Levels.ofBits hi ∧ t.encLo = Levels.ofBits lo ∧ pairBits hi lo = v.setWidth 9 ∧
    hi.toInt = ⌊tempOf v.toInt⌋ ∧ fracOf lo = v.toInt % 2 ∧ canonicalLo lo = true ∧
    exec (.unpack hi lo) t = .next u ∧ u.decHalf = Levels.ofBits v

/-- spec/41_pack.md R57 and spec/70_reset_and_hazards.md R85: out of range means exactly that bits 15:9 are not copies of
bit 8; then PACK still completes, the upper seven bits are discarded, the pair is the code of `sint(v[8:0])`, a different
temperature a non-zero multiple of 512 half degrees (256.0 degrees) away, and nothing else of the machine shows it. -/
def Obligations.PackOutOfRangeWrapsSilently : Prop :=
  ∀ (v : Half) (s : State), (¬ InRange9 v.toInt ↔ v ≠ (v.setWidth 9).signExtend 16) ∧
    (¬ InRange9 v.toInt → ∃ (t : State) (hi lo : Byte) (k : Int), exec (.pack v) s = .next t ∧
      t.encHi = Levels.ofBits hi ∧ t.encLo = Levels.ofBits lo ∧ hi = v.extractLsb' 1 8 ∧ lo = fracByte v ∧
      pairCount hi lo = (v.setWidth 9).toInt ∧ InRange9 (pairCount hi lo) ∧ k ≠ 0 ∧
      pairCount hi lo = v.toInt + 512 * k ∧ tempOf (pairCount hi lo) = tempOf v.toInt + 256 * (k : ℚ) ∧
      t.block = s.block ∧ t.dec = s.dec ∧ t.program = s.program)

/-- spec/30_encoding.md R38: every output bit is a copy of one input bit or the constant 0, and which one it is. -/
def Obligations.OutputBitsAreCopiesOfOperandBitsOrZero : Prop :=
  ∀ (hi lo : Byte) (v : Half) (s : State), ∃ (t u : State) (q : Count) (h : Half) (a b : Byte),
    exec (.unpack hi lo) s = .next t ∧ t.decQ = Levels.ofBits q ∧ t.decHalf = Levels.ofBits h ∧
    exec (.pack v) s = .next u ∧ u.encHi = Levels.ofBits a ∧ u.encLo = Levels.ofBits b ∧
    (∀ i, i < 8 → q.getLsbD (i + 1) = hi.getLsbD i) ∧ q.getLsbD 0 = lo.getLsbD 7 ∧
    (∀ i, i < 9 → h.getLsbD i = q.getLsbD i) ∧ (∀ i, 9 ≤ i → i < 16 → h.getLsbD i = hi.getLsbD 7) ∧
    (∀ i, i < 8 → a.getLsbD i = v.getLsbD (i + 1)) ∧ b.getLsbD 7 = v.getLsbD 0 ∧ (∀ i, i < 7 → b.getLsbD i = false)

/-- spec/30_encoding.md R39: every operand of both operations completes; the 128 pairs that differ only in `lo[6:0]` give the
same results; `enc_lo[6:0]` is zero; `v[15:9]` is ignored: the operand is encoded as if it were `sext_16(v[8:0])`. -/
def Obligations.EveryOperandIsLegalAndIgnoredBitsAreIgnored : Prop :=
  (∀ (hi lo lo' : Byte) (s : State), lo.getLsbD 7 = lo'.getLsbD 7 → ∃ t t', exec (.unpack hi lo) s = .next t ∧
      exec (.unpack hi lo') s = .next t' ∧ t.decQ = t'.decQ ∧ t.decHalf = t'.decHalf) ∧
  (∀ (v : Half) (s : State), ∃ (t t' : State) (lo : Byte), exec (.pack v) s = .next t ∧
      exec (.pack ((v.setWidth 9).signExtend 16)) s = .next t' ∧ t.encHi = t'.encHi ∧ t.encLo = t'.encLo ∧
      t.encLo = Levels.ofBits lo ∧ lo.extractLsb' 0 7 = 0#7)

/-- spec/30_encoding.md R37: the two 16-bit containers. `dec_half` holds `dec_q` in bits 8:0 and seven copies of its sign, and
reads as the same integer; PACK uses `v[8:0]` alone, so two operands that agree there (read as signed or as unsigned) give
the same pair; `v` is the sign extension of its low nine bits exactly when it is in range. -/
def Obligations.SixteenBitContainersCarryTheCount : Prop :=
  (∀ (hi lo : Byte) (s : State), ∃ (t : State) (q : Count) (h : Half), exec (.unpack hi lo) s = .next t ∧
      t.decQ = Levels.ofBits q ∧ t.decHalf = Levels.ofBits h ∧ h.extractLsb' 0 9 = q ∧
      (∀ i, 9 ≤ i → i < 16 → h.getLsbD i = q.getLsbD 8) ∧ h.toInt = q.toInt) ∧
  (∀ (v v' : Half) (s : State), v.extractLsb' 0 9 = v'.extractLsb' 0 9 → ∃ t t', exec (.pack v) s = .next t ∧
      exec (.pack v') s = .next t' ∧ t.encHi = t'.encHi ∧ t.encLo = t'.encLo) ∧
  (∀ v : Half, InRange9 v.toInt ↔ v = (v.extractLsb' 0 9).signExtend 16)

/-- spec/20_memory.md R22: in the packed word `{hi, lo}` the count is the top nine bits; UNPACK ignores the low seven and PACK
produces them as zero. -/
def Obligations.PackedWordHoldsTheCountLeftJustified : Prop :=
  (∀ (hi lo : Byte) (s : State), ∃ (t : State) (q : Count), exec (.unpack hi lo) s = .next t ∧ t.decQ = Levels.ofBits q ∧
      q = (packedWord hi lo).extractLsb' 7 9 ∧ q.msb = (packedWord hi lo).getLsbD 15 ∧
      q.getLsbD 0 = (packedWord hi lo).getLsbD 7) ∧
  (∀ (v : Half) (s : State), ∃ (t : State) (hi lo : Byte), exec (.pack v) s = .next t ∧ t.encHi = Levels.ofBits hi ∧
      t.encLo = Levels.ofBits lo ∧ packedWord hi lo = (v.extractLsb' 0 9 ++ 0#7 : Half))

/-! ## The laws of the codec -/

/-- spec/42_codec_laws.md R61: unpack, then pack. The high byte comes back, the low byte with its ignored bits cleared; on a
canonical pair, which is every pair that PACK can produce, the round trip is the identity. -/
def Obligations.UnpackThenPackClearsTheIgnoredBits : Prop :=
  (∀ (hi lo : Byte) (s : State), ∃ (t : State) (h : Half) (u : State), exec (.unpack hi lo) s = .next t ∧
      t.decHalf = Levels.ofBits h ∧ exec (.pack h) t = .next u ∧ u.encHi = Levels.ofBits hi ∧
      u.encLo = Levels.ofBits (lo &&& 0x80#8) ∧ (canonicalLo lo = true → u.encLo = Levels.ofBits lo)) ∧
  (∀ hi lo : Byte, (∃ (v : Half) (s t : State), exec (.pack v) s = .next t ∧ t.encHi = Levels.ofBits hi ∧
      t.encLo = Levels.ofBits lo) ↔ canonicalLo lo = true)

/-- spec/42_codec_laws.md R62: pack, then unpack, in range: the operand comes back exactly, for all 512 representable values,
the negative ones included. -/
def Obligations.PackThenUnpackInRangeIsTheIdentity : Prop :=
  ∀ (n : Int) (s : State), InRange9 n → ∃ (v : Half) (t : State) (hi lo : Byte) (u : State), v.toInt = n ∧
    exec (.pack v) s = .next t ∧ t.encHi = Levels.ofBits hi ∧ t.encLo = Levels.ofBits lo ∧
    exec (.unpack hi lo) t = .next u ∧ u.decHalf = Levels.ofBits v ∧ u.decQ = Levels.ofBits (v.extractLsb' 0 9) ∧
    (v.extractLsb' 0 9).toInt = n

/-- spec/42_codec_laws.md R63: pack, then unpack, any operand: the low nine bits come back with their sign extended, so the
integer comes back reduced modulo 512, and exactly when it was in range. -/
def Obligations.PackThenUnpackReducesModulo512 : Prop :=
  ∀ (v : Half) (s : State), ∃ (t : State) (hi lo : Byte) (u : State) (h : Half), exec (.pack v) s = .next t ∧
    t.encHi = Levels.ofBits hi ∧ t.encLo = Levels.ofBits lo ∧ exec (.unpack hi lo) t = .next u ∧
    u.decQ = Levels.ofBits (v.extractLsb' 0 9) ∧ u.decHalf = Levels.ofBits h ∧ h = (v.extractLsb' 0 9).signExtend 16 ∧
    InRange9 h.toInt ∧ h.toInt % 512 = v.toInt % 512 ∧ (h.toInt = v.toInt ↔ InRange9 v.toInt)

/-- spec/42_codec_laws.md R64: PACK gives canonical pairs only, and on the in-range integers it is one-to-one onto them, with
UNPACK its inverse; the pairs that unpack to a count, and the operands that pack to a canonical pair, are each one for every setting of the seven
ignored bits (128-to-1). -/
def Obligations.RepresentableTemperaturesAndCanonicalPairsCorrespond : Prop :=
  (∀ (v : Half) (s : State), ∃ (t : State) (hi lo : Byte), exec (.pack v) s = .next t ∧ t.encHi = Levels.ofBits hi ∧
      t.encLo = Levels.ofBits lo ∧ canonicalLo lo = true) ∧
  (∀ hi lo : Byte, canonicalLo lo = true → ∃! v : Half, InRange9 v.toInt ∧ ∀ s : State, ∃ t u : State,
      exec (.pack v) s = .next t ∧ t.encHi = Levels.ofBits hi ∧ t.encLo = Levels.ofBits lo ∧
      exec (.unpack hi lo) s = .next u ∧ u.decHalf = Levels.ofBits v) ∧
  (∀ (q : Count) (hi lo : Byte), (∀ s : State, ∃ t : State, exec (.unpack hi lo) s = .next t ∧ t.decQ = Levels.ofBits q) ↔
      hi = q.extractLsb' 1 8 ∧ ∃! x : BitVec 7, lo = q.extractLsb' 0 1 ++ x) ∧
  (∀ (v : Half) (hi lo : Byte), canonicalLo lo = true →
      ((∀ s : State, ∃ t : State, exec (.pack v) s = .next t ∧ t.encHi = Levels.ofBits hi ∧ t.encLo = Levels.ofBits lo) ↔
        ∃! x : BitVec 7, v = x ++ (pairBits hi lo)))

/-- spec/42_codec_laws.md R65: the conversion preserves order on the signed readings; read as one signed 16-bit word a pair is
`128 * sint(q) + uint(lo[6:0])`, and a canonical pair is the temperature times 256, so canonical pairs compare as words; the
sign is bit 7 of the high byte. -/
def Obligations.PackedPairsCompareAsSignedWords : Prop :=
  ∀ (h1 l1 h2 l2 : Byte) (s : State), ∃ (t1 t2 : State) (q1 q2 : Count),
    exec (.unpack h1 l1) s = .next t1 ∧ t1.decQ = Levels.ofBits q1 ∧
    exec (.unpack h2 l2) s = .next t2 ∧ t2.decQ = Levels.ofBits q2 ∧
    (q1.toInt < q2.toInt ↔
      (pairBits h1 l1).toInt < (pairBits h2 l2).toInt) ∧
    (packedWord h1 l1).toInt = 128 * q1.toInt + ((l1.extractLsb' 0 7).toNat : Int) ∧
    (canonicalLo l1 = true → tempOf q1.toInt = ((packedWord h1 l1).toInt : ℚ) / 256) ∧
    (canonicalLo l1 = true → canonicalLo l2 = true →
      (q1.toInt < q2.toInt ↔ (packedWord h1 l1).toInt < (packedWord h2 l2).toInt)) ∧
    (q1.toInt < 0 ↔ h1.getLsbD 7 = true)

/-- spec/00_scope.md R6: `InRange9` is the range of the 9-bit two's-complement numbers, and a temperature is representable
exactly when it is a multiple of 0.5 from -128.0 to 127.5. -/
def Obligations.RepresentableTemperaturesAreTheHalfDegreesInRange : Prop :=
  (∀ n : Int, InRange9 n ↔ -256 ≤ n ∧ n ≤ 255) ∧ (∀ n : Int, InRange9 n ↔ ∃ q : Count, q.toInt = n) ∧
  (∀ t : ℚ, (∃ n : Int, t = tempOf n ∧ InRange9 n) ↔ (∃ k : Int, t = k * (1 / 2 : ℚ)) ∧ -128 ≤ t ∧ t ≤ 255 / 2)

/-! ## Independence -/

/-- spec/42_codec_laws.md R66: an operation is a function of its operands: whatever operations came before and whatever state
they started in, it completes and gives the results it gives on a machine just reset. -/
def Obligations.ResultsDoNotDependOnWhatCameBefore : Prop :=
  ∀ (before : List Instr) (s : State),
    (∀ hi lo : Byte, ∃ t u, execAll (before ++ [.unpack hi lo]) s = .next t ∧ exec (.unpack hi lo) State.reset = .next u ∧
      t.decQ = u.decQ ∧ t.decHalf = u.decHalf) ∧
    (∀ v : Half, ∃ t u, execAll (before ++ [.pack v]) s = .next t ∧ exec (.pack v) State.reset = .next u ∧
      t.encHi = u.encHi ∧ t.encLo = u.encLo)

/-- spec/20_memory.md R30: operations on DEC and operations on ENC never affect each other. Whatever the interleaving, unit
DEC ends as after its own operations alone and unit ENC as after its own alone, so two interleavings of the same operations
of each unit end in the same state. -/
def Obligations.InterleavingOfTheTwoUnitsDoesNotMatter : Prop :=
  (∀ (is : List Instr) (s : State), ∃ t d e : State, execAll is s = .next t ∧
    execAll (is.filter Instr.onDec) s = .next d ∧ execAll (is.filter fun i => !i.onDec) s = .next e ∧
    t.dec = d.dec ∧ t.enc = e.enc ∧ d.enc = s.enc ∧ e.dec = s.dec ∧ t.program = s.program) ∧
  (∀ (is js : List Instr) (s : State), is.filter Instr.onDec = js.filter Instr.onDec →
    (is.filter fun i => !i.onDec) = (js.filter fun i => !i.onDec) → execAll is s = execAll js s)

/-- Two lines applied at the same moment, one on each unit, give what the two operations give in either order
(spec/60_exceptions.md R72, spec/30_encoding.md R44). That the model writes the DEC operation down first is its own choice
(log 8). -/
def Obligations.LinesAtTheSameMomentMayBeTakenInEitherOrder : Prop :=
  ∀ (s : State) (d : DecOp) (e : EncOp) (rest : List Line) (i j : Instr), s.program = .atOnce d e :: rest →
    d.instr s = .ok i → e.instr s = .ok j →
    ∃ t, step s = .next t ∧ execAll [i, j] { s with program := rest } = .next t ∧
      execAll [j, i] { s with program := rest } = .next t ∧ t.program = rest

/-- Ignored input bits reach no output, not even as an undefined level: two states whose ports agree on the bits that the
table of spec/10_state.md R12 names have the same outputs. -/
def Obligations.IgnoredInputBitsReachNoOutput : Prop :=
  ∀ s s' : State,
    (s.dec.hi = s'.dec.hi → s.dec.lo[7] = s'.dec.lo[7] → s.decQ = s'.decQ ∧ s.decHalf = s'.decHalf) ∧
    ((∀ (i : Nat) (h : i < 9), s.enc.v[i] = s'.enc.v[i]) → s.encHi = s'.encHi ∧ s.encLo = s'.encLo)

/-- spec/10_state.md R17, R10: at every moment, from power-up on, an output port carries the function of what is on its unit's
inputs. Defined inputs give the outputs of R50 and R55; with nothing driven every output bit that depends on an input is
undefined; `enc_lo[6:0]` is zero regardless. -/
def Obligations.OutputsFollowTheInputsAtEveryMoment : Prop :=
  ∀ s : State,
    (∀ hi lo : Byte, s.dec.hi = Levels.ofBits hi → s.dec.lo = Levels.ofBits lo →
      s.decQ = Levels.ofBits (pairBits hi lo) ∧
      s.decHalf = Levels.ofBits ((pairBits hi lo).signExtend 16)) ∧
    (∀ v : Half, s.enc.v = Levels.ofBits v →
      s.encHi = Levels.ofBits (v.extractLsb' 1 8) ∧ s.encLo = Levels.ofBits (fracByte v)) ∧
    (s.dec.hi = Levels.undriven 8 → s.dec.lo = Levels.undriven 8 →
      s.decQ = Levels.undriven 9 ∧ s.decHalf = Levels.undriven 16) ∧
    (s.enc.v = Levels.undriven 16 → s.encHi = Levels.undriven 8 ∧ s.encLo[7] = none) ∧
    (∀ (i : Nat) (h : i < 7), s.encLo[i] = some false)

/-- On partly driven ports too, an output bit is the level on the one input bit that the dependency table of spec/10_state.md
R12 names, "bit for bit", and is undefined exactly when that bit is; no other bit matters. That a level is carried through bit
by bit rests on the reading of spec/93_implementation_defined.md U1 in log 11. -/
def Obligations.OutputBitsFollowTheirInputBitsOnPartlyDrivenPorts : Prop :=
  ∀ s : State,
    (∀ (i : Nat) (h : i < 8), s.decQ[i + 1] = s.dec.hi[i]) ∧ s.decQ[0] = s.dec.lo[7] ∧
    (∀ (i : Nat) (h : i < 9), s.decHalf[i] = s.decQ[i]) ∧
    (∀ (i : Nat) (h : i < 16), 9 ≤ i → s.decHalf[i] = s.dec.hi[7]) ∧
    (∀ (i : Nat) (h : i < 8), s.encHi[i] = s.enc.v[i + 1]) ∧ s.encLo[7] = s.enc.v[0] ∧
    (∀ (i : Nat) (h : i < 7), s.encLo[i] = some false) ∧
    (s.decQ.toList.all Option.isSome = true ↔
      s.dec.hi.toList.all Option.isSome = true ∧ s.dec.lo[7].isSome = true) ∧
    (s.decHalf.toList.all Option.isSome = true ↔ s.decQ.toList.all Option.isSome = true)

/-! ## Frames -/

/-- spec/10_state.md R11: UNPACK reads and writes nothing but the ports of unit DEC. It drives its pair on the two inputs,
adds one record (the model's form of "the results the host recorded", log 1), and leaves the block, unit ENC with its
outputs, and the program as they were. -/
def Obligations.UnpackTouchesOnlyUnitDec : Prop :=
  ∀ (hi lo : Byte) (s : State), ∃ (t : State) (q : Count) (h : Half), exec (.unpack hi lo) s = .next t ∧
    t.dec.hi = Levels.ofBits hi ∧ t.dec.lo = Levels.ofBits lo ∧ t.dec.log = s.dec.log ++ [⟨hi, lo, q, h⟩] ∧
    t.decQ = Levels.ofBits q ∧ t.decHalf = Levels.ofBits h ∧
    t.block = s.block ∧ t.enc = s.enc ∧ t.encHi = s.encHi ∧ t.encLo = s.encLo ∧ t.program = s.program

/-- spec/10_state.md R11: PACK reads and writes nothing but the ports of unit ENC. It drives its operand on the input, adds one
record (log 1), and leaves the block, unit DEC with its outputs, and the program as they were. -/
def Obligations.PackTouchesOnlyUnitEnc : Prop :=
  ∀ (v : Half) (s : State), ∃ (t : State) (hi lo : Byte), exec (.pack v) s = .next t ∧
    t.enc.v = Levels.ofBits v ∧ t.enc.log = s.enc.log ++ [⟨v, hi, lo⟩] ∧
    t.encHi = Levels.ofBits hi ∧ t.encLo = Levels.ofBits lo ∧
    t.block = s.block ∧ t.dec = s.dec ∧ t.decQ = s.decQ ∧ t.decHalf = s.decHalf ∧ t.program = s.program

/-- An operation may be repeated any number of times with the same result (spec/20_memory.md R24): after `n + 1` repetitions
the ports are as after one, and the host has recorded the same result every time (log 1). -/
def Obligations.RepeatingAnOperationGivesTheSameResult : Prop :=
  ∀ (i : Instr) (n : Nat) (s : State), ∃ (t u : State), exec i s = .next t ∧
    execAll (List.replicate (n + 1) i) s = .next u ∧
    u.decQ = t.decQ ∧ u.decHalf = t.decHalf ∧ u.encHi = t.encHi ∧ u.encLo = t.encLo ∧
    (i.onDec = true → ∃ r, u.dec.log = s.dec.log ++ List.replicate (n + 1) r ∧ t.dec.log = s.dec.log ++ [r]) ∧
    (i.onDec = false → ∃ r, u.enc.log = s.enc.log ++ List.replicate (n + 1) r ∧ t.enc.log = s.enc.log ++ [r])

/-! ## Encoding -/

/-- spec/30_encoding.md R41: every one of the 2^17 operation words means exactly one operation with one operand: bit 16 is the
unit, bits 15:0 are the operand. Decoding the word of an operation gives it back, with every operand, and every word is the
word of exactly one operation. -/
def Obligations.OperationWordsAndOperationsCorrespond : Prop :=
  (∀ i : Instr, decodeWord (encode i).toNat = .ok i) ∧
  (∀ n : Nat, n < 2 ^ 17 → ∃! i : Instr, decodeWord n = .ok i ∧ (encode i).toNat = n) ∧
  (∀ w : OpWord, (w.getLsbD 16 = false ∧ ∃ hi lo : Byte, decodeWord w.toNat = .ok (.unpack hi lo) ∧
      packedWord hi lo = w.extractLsb' 0 16) ∨
    (w.getLsbD 16 = true ∧ decodeWord w.toNat = .ok (.pack (w.extractLsb' 0 16))))

/-- spec/30_encoding.md R42: the opcode map. Mask `0x10000`: match `0x00000` is UNPACK with `hi` in bits 15:8 and `lo` in bits
7:0, match `0x10000` is PACK with `v` in bits 15:0; there are no other operations. -/
def Obligations.OpcodeMapSelectsTheUnitByBit16 : Prop :=
  ∀ w : OpWord,
    (w &&& 0x10000#17 = 0x00000#17 ∧ decodeWord w.toNat = .ok (.unpack (w.extractLsb' 8 8) (w.extractLsb' 0 8))) ∨
    (w &&& 0x10000#17 = 0x10000#17 ∧ decodeWord w.toNat = .ok (.pack (w.extractLsb' 0 16)))

/-- Operation words written out in spec/95_test_vectors.md decode to the operations they stand for there. That the number
`0x20000`, which is no operation word, is rejected is the model's choice (log 9). -/
def Obligations.WordsOfTheSpecDecodeAsWritten : Prop :=
  decodeWord 0x01900 = .ok (.unpack 0x19#8 0x00#8) ∧ decodeWord 0x0E77F = .ok (.unpack 0xE7#8 0x7F#8) ∧
  decodeWord 0x10032 = .ok (.pack 0x0032#16) ∧ decodeWord 0x1FFCE = .ok (.pack 0xFFCE#16) ∧
  decodeTableWord 24 0x100A0 = some (.pack 0x00A0#16) ∧ decodeTableWord 24 0x20000 = none

/-! ## The step -/

/-- A step runs the operation that the next operation word decodes to, with that line taken off the program
(spec/30_encoding.md R41, spec/10_state.md R13; the line as the place a word is fetched from is the model's, log 3). From every
state, right after reset or with other lines waiting, the word that `withFetchWord` places is the one the very next step
runs. -/
def Obligations.StepRunsTheDecodedOperation : Prop :=
  (∀ (s : State) (n : Nat) (rest : List Line) (i : Instr), s.program = .word n :: rest → decodeWord n = .ok i →
    step s = exec i { s with program := rest }) ∧
  (∀ (s : State) (w : Nat), w < 2 ^ 17 → step (s.withFetchWord 24 w) = exec (decode (BitVec.ofNat 17 w)) s)

/-- A line's operands are literals or names of host wires (spec/30_encoding.md R44): whatever kind each operand is, a step
performs the operation on the values the operands carry, with the line taken off. The names are those of a recorded high or low
byte, `dec_half`, or `PACKW` word `{hi, lo}`. On a line of two operations at once both operands are the values from before the
moment. Names as places in the host's record (log 6) and the order in which the model writes two operations at once down
(log 8) are the model's choices. -/
def Obligations.LinesRouteRecordedResultsToLaterOperands : Prop :=
  ∀ (s : State) (rest : List Line) (a b : ByteOperand) (c : IntOperand) (hi lo : Byte) (v : Half) (e : EncOp),
    (a.Carries s hi → b.Carries s lo → s.program = .dec (.unpack a b) :: rest →
      step s = exec (.unpack hi lo) { s with program := rest }) ∧
    (c.Carries s v → e = .pack c ∨ e = .packw c → s.program = .enc e :: rest →
      step s = exec (.pack v) { s with program := rest }) ∧
    (a.Carries s hi → b.Carries s lo → c.Carries s v → e = .pack c ∨ e = .packw c →
      s.program = .atOnce (.unpack a b) e :: rest →
      step s = execAll [.unpack hi lo, .pack v] { s with program := rest })

/-- The pseudo-operations are their expansions (spec/30_encoding.md R44). `UNPACKW w` is `UNPACK w[15:8], w[7:0]`. `PACKT t` is
`PACK trunc_16(2*t)`, `2^16 + 2t` for a negative temperature (spec/41_pack.md R58), when `t` is representable. Otherwise the
spec has the notation refuse the line, and it is the model's choice that the step then refuses by name (log 12). `PACKW v` is
`PACK v`, its result word `w = {hi, lo}`, read from the record that the model keeps for the host (log 1). -/
def Obligations.PseudoOperationsAreTheirExpansions : Prop :=
  ∀ (s : State) (rest : List Line),
    (∀ w : Half, s.program = .dec (.unpackw w) :: rest →
      step s = exec (.unpack (w.extractLsb' 8 8) (w.extractLsb' 0 8)) { s with program := rest }) ∧
    (∀ (t : Decimal) (n : Int), t.value = tempOf n → InRange9 n → s.program = .enc (.packt t) :: rest →
      ∃ v : Half, step s = exec (.pack v) { s with program := rest } ∧ v.toInt = n ∧
        (v.toNat : Int) = if n < 0 then 65536 + n else n) ∧
    (∀ t : Decimal, (¬ ∃ n : Int, t.value = tempOf n ∧ InRange9 n) → s.program = .enc (.packt t) :: rest →
      step s = .refused .temperatureNotRepresentable) ∧
    (∀ v : Half, s.program = .enc (.packw (.lit v)) :: rest → ∃ (t : State) (r : EncRecord), step s = .next t ∧
      exec (.pack v) { s with program := rest } = .next t ∧ t.enc.log = s.enc.log ++ [r] ∧
      r.word = (v.extractLsb' 0 9 ++ 0#7 : Half))

/-- An operand with a bit that is not a defined 0 or 1 is refused at the boundary, with nothing put in its place
(spec/93_implementation_defined.md U1, decision D20): a byte that a short read never delivered is one. So it is for every
operand of every line, alone or one of two at once. That an undefined bit which the operation ignores counts too (log 5), that
a name under which nothing has been recorded is such an operand (log 6), and that a line of two operations is refused whole
(log 8) are the model's. -/
def Obligations.UndefinedOperandsAreRefused : Prop :=
  ∀ (s : State) (rest : List Line) (a b : ByteOperand) (c : IntOperand) (d : DecOp) (e : EncOp),
    (a.Undefined s ∨ b.Undefined s →
      s.program = .dec (.unpack a b) :: rest ∨ s.program = .atOnce (.unpack a b) e :: rest →
      step s = .refused .undefinedOperand) ∧
    (c.Undefined s → e = .pack c ∨ e = .packw c → s.program = .enc e :: rest ∨ s.program = .atOnce d e :: rest →
      step s = .refused .undefinedOperand)

/-- A step completes exactly when the next line is well-formed, and otherwise refuses by one of three names: never a fault, which
is what spec/60_exceptions.md R70 says, and never as not modelled. That an operand with a bit that is not defined is refused is
spec/93_implementation_defined.md U1. The rest is the model's choice: with no line left a step changes nothing (log 4), ignored
undefined bits count (log 5), an unrecorded name is an undefined operand (log 6), a line of two operations is refused whole
(log 8), a number of more than 17 bits is rejected (log 9), the lines that drive a single port always complete (log 10), and
the notation's refusal of a `PACKT` literal is a refusal of the step (log 12). -/
def Obligations.StepCompletesExactlyOnWellFormedLines : Prop :=
  ∀ s : State, (s.lineReady = true ↔ ∃ t, step s = .next t) ∧
    (s.lineReady = false → step s = .refused .undefinedOperand ∨ step s = .refused .temperatureNotRepresentable ∨
      ∃ n, 2 ^ 17 ≤ n ∧ step s = .refused (.notAnOperationWord n))

/-- The host may drive the inputs of a unit one at a time (spec/10_state.md R12), from whatever was on them, nothing right after
reset included: with both bytes in place the outputs are those of UNPACK; in between they belong to a pair that is torn, the new
high byte with the fraction bit that was there (spec/70_reset_and_hazards.md R84, R87). With the integer in place the outputs
are those of PACK. Lines that drive a port and perform no operation are the model's form of this (log 10). -/
def Obligations.DrivingThePortsOneByOneGivesTheSameOutputs : Prop :=
  ∀ (s : State) (rest : List Line),
    (∀ hi lo : Byte, s.program = .driveDecHi (Levels.ofBits hi) :: .driveDecLo (Levels.ofBits lo) :: rest →
      ∃ t u w : State, step s = .next t ∧ step t = .next u ∧ exec (.unpack hi lo) s = .next w ∧
        t.decQ[0] = s.dec.lo[7] ∧ (∀ (i : Nat) (h : i < 8), t.decQ[i + 1] = some hi[i]) ∧
        u.decQ = w.decQ ∧ u.decHalf = w.decHalf) ∧
    (∀ hi lo : Byte, s.program = .driveDecLo (Levels.ofBits lo) :: .driveDecHi (Levels.ofBits hi) :: rest →
      ∃ t u w : State, step s = .next t ∧ step t = .next u ∧ exec (.unpack hi lo) s = .next w ∧
        t.decQ[0] = some lo[7] ∧ (∀ (i : Nat) (h : i < 8), t.decQ[i + 1] = s.dec.hi[i]) ∧
        u.decQ = w.decQ ∧ u.decHalf = w.decHalf) ∧
    (∀ v : Half, s.program = .driveEncV (Levels.ofBits v) :: rest →
      ∃ t w : State, step s = .next t ∧ exec (.pack v) s = .next w ∧ t.encHi = w.encHi ∧ t.encLo = w.encLo)

/-- Driving one input port, with any levels, defined or not, puts them on that port and changes nothing else: "driving an input
port has none [no side effect] beyond changing the outputs" (spec/20_memory.md R24). The other ports, both records and the block
are as before; the other unit's outputs too. The lines are the model's form of the host's driving (log 10). -/
def Obligations.DrivingAPortChangesNothingElse : Prop :=
  ∀ (s : State) (rest : List Line),
    (∀ l : Levels 8, s.program = .driveDecHi l :: rest → ∃ t, step s = .next t ∧ t.dec.hi = l ∧ t.dec.lo = s.dec.lo ∧
      t.dec.log = s.dec.log ∧ t.enc = s.enc ∧ t.encHi = s.encHi ∧ t.encLo = s.encLo ∧ t.block = s.block ∧
      t.program = rest) ∧
    (∀ l : Levels 8, s.program = .driveDecLo l :: rest → ∃ t, step s = .next t ∧ t.dec.lo = l ∧ t.dec.hi = s.dec.hi ∧
      t.dec.log = s.dec.log ∧ t.enc = s.enc ∧ t.encHi = s.encHi ∧ t.encLo = s.encLo ∧ t.block = s.block ∧
      t.program = rest) ∧
    (∀ l : Levels 16, s.program = .driveEncV l :: rest → ∃ t, step s = .next t ∧ t.enc.v = l ∧ t.enc.log = s.enc.log ∧
      t.dec = s.dec ∧ t.decQ = s.decQ ∧ t.decHalf = s.decHalf ∧ t.block = s.block ∧ t.program = rest)

/-- Nothing is left pending and no result is lost (spec/10_state.md R16, spec/70_reset_and_hazards.md R89): a step takes at
most one line off the program, keeps every recorded result, and adds at most one on each unit. The record is the model's
form of the host's (log 1). -/
def Obligations.StepsKeepRecordedResults : Prop :=
  ∀ s t : State, step s = .next t → t.program = s.program.tail ∧
    (∃ l, t.dec.log = s.dec.log ++ l ∧ l.length ≤ 1) ∧ (∃ l, t.enc.log = s.enc.log ++ l ∧ l.length ≤ 1)

/-! ## The invariant -/

/-- Every result that the host has recorded obeys the codec's arithmetic (spec/40_unpack.md R52, spec/42_codec_laws.md R61,
R63), in every state that a step reaches from a state where it does. -/
def Obligations.EveryStepKeepsTheRecordedResultsLawful : Prop :=
  ∀ s t : State, s.RecordsLawful → step s = .next t → t.RecordsLawful

/-- Right after reset nothing is recorded (log 1), so the recorded results are lawful. -/
def Obligations.RecordedResultsAreLawfulAtReset : Prop := State.reset.RecordsLawful
end

