-- ==== Sys2Proof/Laws/Decode.lean ====
section
/-! SUPPORT. The opcode map is unambiguous and complete (spec/30_encoding.md R42). -/

namespace Sys2Proof

/-- Row UNPACK accepts exactly the operation words below `0x10000`. -/
theorem unpackRow_accepts_iff (w : OpWord) : unpackRow.accepts w = true ↔ w.toNat < 65536 := by
  have := w.isLt
  simp only [OpcodeRow.accepts, beq_iff_eq, unpackRow, ← BitVec.toNat_inj, BitVec.toNat_and]
  rw [show (0x10000#17).toNat = 2 ^ 16 from rfl, Nat.and_two_pow, Nat.testBit, Nat.shiftRight_eq_div_pow]
  have : w.toNat / 2 ^ 16 = 0 ∨ w.toNat / 2 ^ 16 = 1 := by omega
  rcases this with h | h <;> rw [h] <;> simp <;> omega

/-- Row PACK accepts exactly the other operation words. -/
theorem packRow_accepts_iff (w : OpWord) : packRow.accepts w = true ↔ 65536 ≤ w.toNat := by
  have := w.isLt
  simp only [OpcodeRow.accepts, beq_iff_eq, packRow, ← BitVec.toNat_inj, BitVec.toNat_and]
  rw [show (0x10000#17).toNat = 2 ^ 16 from rfl, Nat.and_two_pow, Nat.testBit, Nat.shiftRight_eq_div_pow]
  have : w.toNat / 2 ^ 16 = 0 ∨ w.toNat / 2 ^ 16 = 1 := by omega
  rcases this with h | h <;> rw [h] <;> simp <;> omega

/-- No operation word is accepted by two rows, and none by no row. -/
theorem opcodeTable_accepts_once (w : OpWord) : (opcodeTable.filter fun r => r.accepts w).length = 1 := by
  by_cases h : w.toNat < 65536
  · have h1 := (unpackRow_accepts_iff w).mpr h
    have h2 : packRow.accepts w = false := by
      rw [← Bool.not_eq_true, packRow_accepts_iff]; omega
    simp [opcodeTable, h1, h2]
  · have h1 : unpackRow.accepts w = false := by
      rw [← Bool.not_eq_true, unpackRow_accepts_iff]; exact h
    have h2 := (packRow_accepts_iff w).mpr (by omega)
    simp [opcodeTable, h1, h2]

end Sys2Proof
end

