-- ==== Sys2Proof/Laws/State.lean ====
section
/-! SUPPORT. One lemma per field per update of State. -/

namespace Sys2Proof.Machine

section
variable (s : State) (a : Levels 8) (v : Levels 16) (d : DecRecord) (e : EncRecord)

@[simp] theorem driveDecHi_block : (s.driveDecHi a).block = s.block := rfl
@[simp] theorem driveDecHi_hi : (s.driveDecHi a).dec.hi = a := rfl
@[simp] theorem driveDecHi_lo : (s.driveDecHi a).dec.lo = s.dec.lo := rfl
@[simp] theorem driveDecHi_log : (s.driveDecHi a).dec.log = s.dec.log := rfl
@[simp] theorem driveDecHi_enc : (s.driveDecHi a).enc = s.enc := rfl
@[simp] theorem driveDecHi_program : (s.driveDecHi a).program = s.program := rfl

@[simp] theorem driveDecLo_block : (s.driveDecLo a).block = s.block := rfl
@[simp] theorem driveDecLo_hi : (s.driveDecLo a).dec.hi = s.dec.hi := rfl
@[simp] theorem driveDecLo_lo : (s.driveDecLo a).dec.lo = a := rfl
@[simp] theorem driveDecLo_log : (s.driveDecLo a).dec.log = s.dec.log := rfl
@[simp] theorem driveDecLo_enc : (s.driveDecLo a).enc = s.enc := rfl
@[simp] theorem driveDecLo_program : (s.driveDecLo a).program = s.program := rfl

@[simp] theorem driveEncV_block : (s.driveEncV v).block = s.block := rfl
@[simp] theorem driveEncV_v : (s.driveEncV v).enc.v = v := rfl
@[simp] theorem driveEncV_log : (s.driveEncV v).enc.log = s.enc.log := rfl
@[simp] theorem driveEncV_dec : (s.driveEncV v).dec = s.dec := rfl
@[simp] theorem driveEncV_program : (s.driveEncV v).program = s.program := rfl

@[simp] theorem recordDec_block : (s.recordDec d).block = s.block := rfl
@[simp] theorem recordDec_hi : (s.recordDec d).dec.hi = s.dec.hi := rfl
@[simp] theorem recordDec_lo : (s.recordDec d).dec.lo = s.dec.lo := rfl
@[simp] theorem recordDec_log : (s.recordDec d).dec.log = s.dec.log ++ [d] := rfl
@[simp] theorem recordDec_enc : (s.recordDec d).enc = s.enc := rfl
@[simp] theorem recordDec_program : (s.recordDec d).program = s.program := rfl

@[simp] theorem recordEnc_block : (s.recordEnc e).block = s.block := rfl
@[simp] theorem recordEnc_v : (s.recordEnc e).enc.v = s.enc.v := rfl
@[simp] theorem recordEnc_log : (s.recordEnc e).enc.log = s.enc.log ++ [e] := rfl
@[simp] theorem recordEnc_dec : (s.recordEnc e).dec = s.dec := rfl
@[simp] theorem recordEnc_program : (s.recordEnc e).program = s.program := rfl

end

end Sys2Proof.Machine
end

