-- ==== Sys2Proof/Laws/Ops.lean ====
section
/-! SUPPORT. One lemma per shared operation: what a bit of a port is, when a vector of levels has a value, what a line stands
for, and everything an operation can do. -/

namespace Sys2Proof.Machine

@[simp] theorem getElem_ofBits {w : Nat} (x : BitVec w) (i : Nat) (h : i < w) :
    (Levels.ofBits x)[i] = some x[i] := by
  simp only [Levels.ofBits, Vector.getElem_ofFn, BitVec.getLsbD_eq_getElem h]

@[simp] theorem getElem_undriven (w i : Nat) (h : i < w) : (Levels.undriven w)[i] = none := by
  simp [Levels.undriven]

/-- A port shows at most one vector. -/
theorem ofBits_inj {w : Nat} {x y : BitVec w} : Levels.ofBits x = Levels.ofBits y ↔ x = y := by
  refine ⟨fun h => BitVec.eq_of_getElem_eq fun i hi => ?_, fun h => h ▸ rfl⟩
  have := congrArg (fun l : Levels w => l[i]) h
  simpa using this

theorem defined_iff {w : Nat} (l : Levels w) :
    l.toList.all Option.isSome = true ↔ ∀ (i : Nat) (h : i < w), l[i].isSome = true := by
  rw [List.all_eq_true]
  constructor
  · intro h i hi
    exact h _ (by simp)
  · intro h a ha
    obtain ⟨i, hi, rfl⟩ := Vector.getElem_of_mem (Vector.mem_toList_iff.mp ha)
    exact h i hi

/-- A port has the value `x` exactly when it shows `x`. -/
theorem value?_eq_some {w : Nat} (l : Levels w) (x : BitVec w) : Levels.value? l = some x ↔ l = Levels.ofBits x := by
  unfold Levels.value?
  constructor
  · split
    · rename_i h
      rw [defined_iff] at h
      intro hx
      obtain rfl := Option.some.inj hx
      ext i hi : 1
      obtain ⟨b, hb⟩ := Option.isSome_iff_exists.mp (h i hi)
      cases b <;> simp [hb]
    · intro hx
      cases hx
  · rintro rfl
    rw [if_pos ((defined_iff _).mpr fun i hi => by simp)]
    congr 1
    ext i hi : 1
    simp

@[simp] theorem value?_ofBits {w : Nat} (x : BitVec w) : Levels.value? (Levels.ofBits x) = some x :=
  (value?_eq_some _ _).mpr rfl

/-- A port has no value exactly when some bit of it is undefined. -/
theorem value?_eq_none {w : Nat} (l : Levels w) : Levels.value? l = none ↔ ∃ (i : Nat) (h : i < w), l[i] = none := by
  unfold Levels.value?
  split
  · rename_i h
    rw [defined_iff] at h
    simp only [reduceCtorEq, false_iff, not_exists]
    intro i hi hn
    simpa [hn] using h i hi
  · rename_i h
    rw [defined_iff] at h
    push Not at h
    simpa using h

theorem unpackOf_ofBits (h l : Byte) : unpackOf (Levels.ofBits h) (Levels.ofBits l) = .ok (.unpack h l) := by
  simp [unpackOf]

theorem packOf_ofBits (v : Half) : packOf (Levels.ofBits v) = .ok (.pack v) := by
  simp [packOf]

/-- A DEC line stands for an UNPACK or is refused for an undefined operand. -/
theorem DecOp.instr_cases (s : State) (d : DecOp) :
    (∃ hi lo, d.instr s = .ok (.unpack hi lo)) ∨ d.instr s = .error .undefinedOperand := by
  cases d with
  | unpack hi lo =>
    simp only [DecOp.instr, unpackOf]
    split
    · exact .inl ⟨_, _, rfl⟩
    · exact .inr rfl
  | unpackw w => exact .inl ⟨_, _, rfl⟩

/-- An ENC line stands for a PACK or is refused by the name of its reason. -/
theorem EncOp.instr_cases (s : State) (e : EncOp) :
    (∃ v, e.instr s = .ok (.pack v)) ∨ e.instr s = .error .undefinedOperand ∨
      e.instr s = .error .temperatureNotRepresentable := by
  cases e with
  | pack v =>
    simp only [EncOp.instr, packOf]
    split
    · exact .inl ⟨_, rfl⟩
    · exact .inr (.inl rfl)
  | packt t =>
    simp only [EncOp.instr]
    split
    · exact .inl ⟨_, rfl⟩
    · exact .inr (.inr rfl)
  | packw v =>
    simp only [EncOp.instr, packOf]
    split
    · exact .inl ⟨_, rfl⟩
    · exact .inr (.inl rfl)

/-- What a line stands for depends on the host's record only, not on the lines that follow it. -/
theorem DecOp.instr_congr {s t : State} (h : s.enc.log = t.enc.log) (d : DecOp) : d.instr s = d.instr t := by
  cases d with
  | unpack hi lo => cases hi <;> cases lo <;> simp [DecOp.instr, ByteOperand.levels, h]
  | unpackw w => rfl

theorem EncOp.instr_congr {s t : State} (h : s.dec.log = t.dec.log) (h' : s.enc.log = t.enc.log) (e : EncOp) : e.instr s = e.instr t := by
  cases e with
  | pack v => cases v <;> simp [EncOp.instr, IntOperand.levels, h, h']
  | packt t => rfl
  | packw v => cases v <;> simp [EncOp.instr, IntOperand.levels, h, h']

/-- Taking a line off the program leaves what a line stands for as it was. -/
@[simp] theorem DecOp.instr_program (s : State) (rest : List Line) (d : DecOp) :
    d.instr { s with program := rest } = d.instr s := d.instr_congr rfl

@[simp] theorem EncOp.instr_program (s : State) (rest : List Line) (e : EncOp) :
    e.instr { s with program := rest } = e.instr s := e.instr_congr rfl rfl

/-- Everything an operation can do: it answers a next state, that of its unit's record. -/
theorem exec_cases {i : Instr} {s t : State} (h : exec i s = .next t) :
    (∃ hi lo, i = .unpack hi lo ∧ t = ((s.driveDecHi (Levels.ofBits hi)).driveDecLo (Levels.ofBits lo)).recordDec
        ⟨hi, lo, unpackQ hi lo, unpackHalf hi lo⟩) ∨
      (∃ v, i = .pack v ∧ t = (s.driveEncV (Levels.ofBits v)).recordEnc ⟨v, packHi v, packLo v⟩) := by
  cases i with
  | unpack hi lo =>
    simp only [exec, execUnpack, Host.Outcome.next.injEq] at h
    exact .inl ⟨hi, lo, rfl, h.symm⟩
  | pack v =>
    simp only [exec, execPack, Host.Outcome.next.injEq] at h
    exact .inr ⟨v, rfl, h.symm⟩

end Sys2Proof.Machine
end

