-- ==== Sys2Proof/Laws/Ports.lean ====
section
/-! SUPPORT. One lemma per converter function and per output port: the bits of the format, and what a port carries when its
unit's inputs are driven. -/

namespace Sys2Proof.Machine

theorem getElem_pairBits (hi lo : Byte) (i : Nat) (h : i < 9) :
    (pairBits hi lo)[i] = if i = 0 then lo[7] else hi.getLsbD (i - 1) := by
  refine (BitVec.getElem_append (x := hi) (y := lo.extractLsb' 7 1) (i := i) h).trans ?_
  rcases i with _ | i
  · simp
  · simp [BitVec.getLsbD_eq_getElem (show i < 8 by omega)]

theorem getElem_fracByte (v : Half) (i : Nat) (h : i < 8) : (fracByte v)[i] = (decide (i = 7) && v[0]) := by
  refine (BitVec.getElem_append (x := v.extractLsb' 0 1) (y := 0#7) (i := i) h).trans ?_
  by_cases h7 : i = 7
  · subst h7; simp
  · simp [h7, show i < 7 by omega]

/-- The shifts of the pseudocode of R50 place the nine bits of the format. -/
theorem unpackQ_eq_pairBits (hi lo : Byte) : unpackQ hi lo = pairBits hi lo := by
  ext i h
  rw [getElem_pairBits, unpackQ]
  rcases i with _ | i
  · simp [Config.UNPACK_SHR]
  · simp [Config.UNPACK_SHR, Config.UNPACK_SHL, BitVec.getLsbD_of_ge lo (7 + (i + 1)) (by omega)]

theorem packHi_eq_extract (v : Half) : packHi v = v.extractLsb' 1 8 := by
  ext i h
  simp [packHi, Config.PACK_SHR]

theorem packLo_eq_fracByte (v : Half) : packLo v = fracByte v := by
  ext i h
  rw [getElem_fracByte]
  by_cases h7 : i = 7
  · subst h7; simp [packLo, Config.PACK_SHL]
  · simp [packLo, Config.PACK_SHL, h7, show i < 7 by omega]

theorem qOut_driven (hi lo : Byte) (l : List DecRecord) :
    (DecUnit.mk (Levels.ofBits hi) (Levels.ofBits lo) l).qOut = Levels.ofBits (pairBits hi lo) := by
  ext i h : 1
  rw [DecUnit.qOut, Vector.getElem_ofFn, getElem_ofBits (pairBits hi lo), getElem_pairBits]
  rcases i with _ | i
  · simp
  · simp [BitVec.getLsbD_eq_getElem (show i < 8 by omega)]

theorem halfOut_driven (hi lo : Byte) (l : List DecRecord) :
    (DecUnit.mk (Levels.ofBits hi) (Levels.ofBits lo) l).halfOut = Levels.ofBits ((pairBits hi lo).signExtend 16) := by
  ext i h : 1
  rw [DecUnit.halfOut, Vector.getElem_ofFn]
  simp only [qOut_driven, getElem_ofBits, BitVec.getElem_signExtend, BitVec.msb_eq_getLsbD_last]
  split
  · rfl
  · rw [BitVec.getLsbD_eq_getElem (by decide), getElem_pairBits]
    simp

theorem hiOut_driven (v : Half) (l : List EncRecord) :
    (EncUnit.mk (Levels.ofBits v) l).hiOut = Levels.ofBits (v.extractLsb' 1 8) := by
  ext i h : 1
  simp [EncUnit.hiOut, Nat.add_comm 1 i, BitVec.getLsbD_eq_getElem (show i + 1 < 16 by omega)]

theorem loOut_driven (v : Half) (l : List EncRecord) :
    (EncUnit.mk (Levels.ofBits v) l).loOut = Levels.ofBits (fracByte v) := by
  ext i h : 1
  rw [EncUnit.loOut, Vector.getElem_ofFn, getElem_ofBits (fracByte v), getElem_fracByte]
  by_cases h7 : i = 7
  · subst h7; simp
  · simp [h7]

theorem fracOf_eq_extract (lo : Byte) : fracOf lo = ((lo.extractLsb' 7 1).toNat : Int) := by
  simp only [fracOf, BitVec.getLsbD, BitVec.extractLsb'_toNat, Nat.testBit, Nat.shiftRight_eq_div_pow]
  have := lo.isLt
  split <;> rename_i h <;> simp at h ⊢ <;> omega

theorem pairBits_toNat (hi lo : Byte) : (pairBits hi lo).toNat = hi.toNat * 2 + (lo.extractLsb' 7 1).toNat := by
  refine (BitVec.toNat_append hi (lo.extractLsb' 7 1)).trans ?_
  rw [← Nat.shiftLeft_add_eq_or_of_lt (BitVec.isLt _), Nat.shiftLeft_eq]

/-- The nine bits of a pair, read as two's complement, are the count it is the code of. -/
theorem pairBits_toInt (hi lo : Byte) : (pairBits hi lo).toInt = pairCount hi lo := by
  have := hi.isLt
  have := (lo.extractLsb' 7 1).isLt
  rw [pairCount, fracOf_eq_extract, BitVec.toInt_eq_toNat_cond, BitVec.toInt_eq_toNat_cond, pairBits_toNat]
  split <;> split <;> omega

end Sys2Proof.Machine
end

