-- ==== Sys2Proof/Laws/Operands.lean ====
section
/-! SUPPORT. What an operand of a line puts on its port, said once for each kind of operand. -/

namespace Sys2Proof.Machine

/-- A port shows a defined byte exactly when the operand carries it. -/
theorem ByteOperand.levels_eq_ofBits (s : State) (o : ByteOperand) (b : Byte) :
    o.levels s = Levels.ofBits b ↔ o.Carries s b := by
  have hu : Levels.undriven 8 ≠ Levels.ofBits b := fun h => by
    have := congrArg (fun l : Levels 8 => l[0]) h
    simp at this
  cases o with
  | lit c => exact ofBits_inj
  | wire l => exact Iff.rfl
  | hiOf k => cases h : s.enc.log[k]? <;> simp [ByteOperand.levels, ByteOperand.Carries, h, hu, ofBits_inj]
  | loOf k => cases h : s.enc.log[k]? <;> simp [ByteOperand.levels, ByteOperand.Carries, h, hu, ofBits_inj]

/-- A port shows a defined integer exactly when the operand carries it. -/
theorem IntOperand.levels_eq_ofBits (s : State) (o : IntOperand) (v : Half) :
    o.levels s = Levels.ofBits v ↔ o.Carries s v := by
  have hu : Levels.undriven 16 ≠ Levels.ofBits v := fun h => by
    have := congrArg (fun l : Levels 16 => l[0]) h
    simp at this
  cases o with
  | lit c => exact ofBits_inj
  | wire l => exact Iff.rfl
  | halfOf k => cases h : s.dec.log[k]? <;> simp [IntOperand.levels, IntOperand.Carries, h, hu, ofBits_inj]
  | wordOf k =>
    cases h : s.enc.log[k]? <;> simp [IntOperand.levels, IntOperand.Carries, EncRecord.word, h, hu, ofBits_inj]

theorem undriven_value? (w : Nat) : Levels.value? (Levels.undriven (w + 1)) = none :=
  (value?_eq_none _).mpr ⟨0, by omega, by simp⟩

/-- A byte operand has no value exactly when some bit of it is undefined. -/
theorem ByteOperand.value?_eq_none (s : State) (o : ByteOperand) :
    Levels.value? (o.levels s) = none ↔ o.Undefined s := by
  cases o with
  | lit c => simp [ByteOperand.levels, ByteOperand.Undefined]
  | wire l => exact Machine.value?_eq_none l
  | hiOf k =>
    cases h : s.enc.log[k]? <;> simp [ByteOperand.levels, ByteOperand.Undefined, h, undriven_value? 7] <;>
      grind
  | loOf k =>
    cases h : s.enc.log[k]? <;> simp [ByteOperand.levels, ByteOperand.Undefined, h, undriven_value? 7] <;>
      grind

/-- A 16-bit operand has no value exactly when some bit of it is undefined. -/
theorem IntOperand.value?_eq_none (s : State) (o : IntOperand) :
    Levels.value? (o.levels s) = none ↔ o.Undefined s := by
  cases o with
  | lit c => simp [IntOperand.levels, IntOperand.Undefined]
  | wire l => exact Machine.value?_eq_none l
  | halfOf k =>
    cases h : s.dec.log[k]? <;> simp [IntOperand.levels, IntOperand.Undefined, h, undriven_value? 15] <;>
      grind
  | wordOf k =>
    cases h : s.enc.log[k]? <;> simp [IntOperand.levels, IntOperand.Undefined, h, undriven_value? 15] <;>
      grind

end Sys2Proof.Machine
end

