-- ==== Sys2Proof/Laws/PerInstr.lean ====
section
/-! SUPPORT. Statements made per instruction. UnitBit: bit 16 of the operation word selects the unit
(spec/30_encoding.md R41). -/

namespace Sys2Proof.Laws

/-- Bit 16 of the operation word is 0 for an operation of DEC and 1 for one of ENC (R41). -/
def UnitBit.Statement (i : Instr) : Prop := (encode i).getLsbD 16 = !i.onDec

theorem UnitBit.unpack (hi lo : Byte) : UnitBit.Statement (.unpack hi lo) := by
  simp only [UnitBit.Statement, encode, Instr.onDec, BitVec.getLsbD_append]; rfl

theorem UnitBit.pack (v : Half) : UnitBit.Statement (.pack v) := by
  simp only [UnitBit.Statement, encode, Instr.onDec, BitVec.getLsbD_append]; rfl

end Sys2Proof.Laws
end

