-- ==== Sys2Proof/Laws/Step.lean ====
section
/-! SUPPORT. Everything one step can do, said once. -/

namespace Sys2Proof.Machine

/-- With no line left a step changes nothing. -/
theorem step_nil {s : State} (h : s.program = []) : step s = .next s := by
  unfold step; rw [h]

/-- With a line left a step applies it. -/
theorem step_cons {s : State} {l : Line} {rest : List Line} (h : s.program = l :: rest) :
    step s = applyLine l { s with program := rest } := by
  unfold step; rw [h]

/-- A line that is applied performs one operation, or one on each unit, or drives one port. -/
theorem applyLine_cases {l : Line} {s t : State} (h : applyLine l s = .next t) :
    (∃ i, exec i s = .next t) ∨
      (∃ hi lo v u, exec (.unpack hi lo) s = .next u ∧ exec (.pack v) u = .next t) ∨
      (∃ a, t = s.driveDecHi a) ∨ (∃ a, t = s.driveDecLo a) ∨ (∃ v, t = s.driveEncV v) := by
  cases l with
  | word n =>
    simp only [applyLine, applyInstr] at h
    split at h
    · exact .inl ⟨_, h⟩
    · cases h
  | dec d =>
    simp only [applyLine, applyInstr] at h
    split at h
    · exact .inl ⟨_, h⟩
    · cases h
  | enc e =>
    simp only [applyLine, applyInstr] at h
    split at h
    · exact .inl ⟨_, h⟩
    · cases h
  | atOnce d e =>
    simp only [applyLine] at h
    obtain ⟨hi, lo, hd⟩ | hd := d.instr_cases s
    · obtain ⟨v, he⟩ | he | he := e.instr_cases s
      · rw [hd, he] at h
        exact .inr (.inl ⟨hi, lo, v, _, rfl, h⟩)
      · rw [hd, he] at h; cases h
      · rw [hd, he] at h; cases h
    · rw [hd] at h; cases h
  | driveDecHi a => exact .inr (.inr (.inl ⟨a, (Host.Outcome.next.inj h).symm⟩))
  | driveDecLo a => exact .inr (.inr (.inr (.inl ⟨a, (Host.Outcome.next.inj h).symm⟩)))
  | driveEncV a => exact .inr (.inr (.inr (.inr ⟨a, (Host.Outcome.next.inj h).symm⟩)))

end Sys2Proof.Machine
end

