-- ==== Sys2Proof/Tests/Slice0.lean ====
section
/-! SUPPORT. Tests. Expected results are those of spec/95_test_vectors.md (the row is named), or hand calculation from the
rule named. Then one witness for every statement of Certificates/Slice0/Obligations.lean that has hypotheses, at the
boundary values of their ranges. -/

namespace Sys2Proof.Tests

open Sys2Proof.Machine

/-- The next state of an outcome, if it is one. -/
def nextOf (o : Host.Outcome State Fault Refusal) : Option State :=
  match o with
  | .next t => some t
  | .fault _ => none
  | .refused _ => none

/-- The refusal of an outcome, if it is one. -/
def refusalOf (o : Host.Outcome State Fault Refusal) : Option Refusal :=
  match o with
  | .next _ => none
  | .fault _ => none
  | .refused r => some r

/-- What the DEC outputs read as. -/
def decOut (s : State) : Option Count × Option Half := (Levels.value? s.decQ, Levels.value? s.decHalf)

/-- What the ENC outputs read as. -/
def encOut (s : State) : Option Byte × Option Byte := (Levels.value? s.encHi, Levels.value? s.encLo)

/-- A machine just reset, with these lines to apply. -/
def withLines (ls : List Line) : State := { State.reset with program := ls }

/-- A byte whose bit 3 nobody drives. -/
def torn8 : Levels 8 := #v[some true, some true, some true, none, some true, some true, some true, some true]

/-- An integer whose bit 15 nobody drives (a bit that PACK ignores). -/
def torn16 : Levels 16 := #v[some false, some true, some false, some false, some true, some true, some false, some false,
  some false, some false, some false, some false, some false, some false, some false, none]

/-! ## The types have the widths of spec/00_scope.md R4 -/

theorem test_widths : Byte = BitVec Config.BYTE_W ∧ Count = BitVec Config.Q_W ∧ Half = BitVec Config.V_W ∧
    Half = BitVec Config.HALF_W ∧ 2 ^ Config.FRAC_BITS = 2 ∧ Config.Q_MIN = -(2 ^ (Config.Q_W - 1)) ∧
    Config.Q_MAX = 2 ^ (Config.Q_W - 1) - 1 := ⟨rfl, rfl, rfl, rfl, rfl, rfl, rfl⟩

/-! ## WellFormed refuses an ill-formed term of each kind -/

theorem test_wf_word : (Line.word 0x20000).wellFormed 0 0 = false ∧ (Line.word 0x1FFFF).wellFormed 0 0 = true := by decide
theorem test_wf_byte_wire : (Line.dec (.unpack (.wire torn8) (.lit 0))).wellFormed 0 0 = false := by decide
theorem test_wf_int_wire : (Line.enc (.pack (.wire torn16))).wellFormed 0 0 = false := by decide
theorem test_wf_names : (Line.dec (.unpack (.hiOf 1) (.lit 0))).wellFormed 9 1 = false ∧
    (Line.dec (.unpack (.lit 0) (.loOf 1))).wellFormed 9 1 = false ∧
    (Line.enc (.packw (.halfOf 1))).wellFormed 1 9 = false ∧ (Line.enc (.packw (.halfOf 0))).wellFormed 1 9 = true ∧
    (Line.enc (.pack (.wordOf 1))).wellFormed 9 1 = false ∧ (Line.enc (.pack (.wordOf 0))).wellFormed 0 1 = true := by decide
theorem test_wf_packt : (Line.enc (.packt ⟨253, 1⟩)).wellFormed 0 0 = false ∧
    (Line.enc (.packt ⟨1280, 1⟩)).wellFormed 0 0 = false ∧ (Line.enc (.packt ⟨-1285, 1⟩)).wellFormed 0 0 = false ∧
    (Line.enc (.packt ⟨1275, 1⟩)).wellFormed 0 0 = true ∧ (Line.enc (.packt ⟨-128, 0⟩)).wellFormed 0 0 = true := by decide
theorem test_wf_atOnce : (Line.atOnce (.unpack (.wire torn8) (.lit 0)) (.pack (.lit 0))).wellFormed 0 0 = false ∧
    (Line.atOnce (.unpackw 0) (.packt ⟨253, 1⟩)).wellFormed 0 0 = false := by decide

/-! ## Decoding: words written out bit by bit from spec/30_encoding.md R42 -/

/-- `0 hhhhhhhh f uuuuuuu` with `hi = 0xE7`, `lo = 0x7F` (program B, line 1). -/
theorem test_decode_unpack : decode 0b0_11100111_0_1111111#17 = .unpack 0xE7#8 0x7F#8 ∧
    encode (.unpack 0xE7#8 0x7F#8) = 0x0E77F#17 := by decide

/-- `1 uuuuuuu iiiiiiii f` with `v = 0x0132` (the ignored bits and the integer bits both set; row W04). -/
theorem test_decode_pack : decode 0b1_0000000_10011001_0#17 = .pack 0x0132#16 ∧
    encode (.pack 0x0132#16) = 0x10132#17 := by decide

theorem test_decode_rejects : decodeWord 0x20000 = .error (.notAnOperationWord 0x20000) ∧
    decodeTableWord 24 0x20000 = none ∧ decodeTableWord 24 0x1FFFF = some (.pack 0xFFFF#16) := ⟨rfl, rfl, rfl⟩

/-! ## The operations: spec/95_test_vectors.md -/

/-- Row U19, and the divergence table of section 2.3: never `0x01CE`. -/
theorem test_unpack_negative :
    (nextOf (exec (.unpack 0xE7#8 0x00#8) State.reset)).map decOut = some (some 0x1CE#9, some 0xFFCE#16) := by decide

/-- Row U09: alternating bits, the ignored bits set. -/
theorem test_unpack_ignores_low_bits :
    (nextOf (exec (.unpack 0x55#8 0xAA#8) State.reset)).map decOut = some (some 0x0AB#9, some 0x00AB#16) := by decide

/-- Row P14: a negative odd count. -/
theorem test_pack_negative_odd :
    (nextOf (exec (.pack 0xFF93#16) State.reset)).map encOut = some (some 0xC9#8, some 0x80#8) := by decide

/-- Row W10: silent wrap. -/
theorem test_pack_wraps :
    (nextOf (exec (.pack 0xABCD#16) State.reset)).map encOut = some (some 0xE6#8, some 0x80#8) := by decide

/-! ## The ports, the step -/

/-- spec/10_state.md R17: after reset nothing is driven; `enc_lo[6:0]` is zero, always. -/
theorem test_reset_outputs : decOut State.reset = (none, none) ∧ State.reset.encLo =
    #v[some false, some false, some false, some false, some false, some false, some false, none] := by decide

/-- An undefined bit 3 of `dec_hi` makes bit 4 of `dec_q` undefined and no other (spec/10_state.md R12). -/
theorem test_undefined_bit_propagates :
    ((nextOf (step (withLines [.driveDecHi torn8]))).map fun t => (t.decQ[3], t.decQ[4], t.decQ[5], t.decHalf[15])) =
      some (some true, none, some true, some true) := by decide

/-- The first step after reset runs the word of DOC00's example S6. -/
theorem test_first_step : (nextOf (step (State.reset.withFetchWord 24 0x01900))).map decOut =
    some (some 0x032#9, some 0x0032#16) := by decide

/-- Program D, third moment: both units at once. -/
theorem test_at_once :
    ((nextOf (step (withLines [.atOnce (.unpack (.lit 0xFF#8) (.lit 0x80#8)) (.pack (.lit 0xFFFF#16))]))).map
      fun t => (decOut t, encOut t)) =
      some ((some 0x1FF#9, some 0xFFFF#16), (some 0xFF#8, some 0x80#8)) := by decide

/-- `PACKT -25.0` is `PACK 0xFFCE` (row P15); `PACKT 25.3` is refused by the notation (spec/30_encoding.md R44). -/
theorem test_packt : (nextOf (step (withLines [.enc (.packt ⟨-250, 1⟩)]))).map encOut = some (some 0xE7#8, some 0x00#8) ∧
    refusalOf (step (withLines [.enc (.packt ⟨253, 1⟩)])) = some .temperatureNotRepresentable := by decide

/-- `PACKW 0x00A0 -> w` names `0x5000` (row P08), and `PACK w` keeps `w[8:0]`, which is 0 (hand, R44, R55). -/
theorem test_route_word :
    let s := { withLines [.enc (.pack (.wordOf 0))] with enc := ⟨Levels.undriven 16, [⟨0x00A0#16, 0x50#8, 0x00#8⟩]⟩ }
    ((nextOf (step s)).map fun t => (encOut t, t.enc.log[1]?)) =
      some ((some 0x00#8, some 0x00#8), some ⟨0x5000#16, 0x00#8, 0x00#8⟩) := by decide

/-- An operand with an undefined bit is refused, even a bit that PACK ignores (U1). -/
theorem test_undefined_operand : refusalOf (step (withLines [.enc (.pack (.wire torn16))])) = some .undefinedOperand := by
  decide

/-! ## Witnesses: concrete states and operands that meet the hypotheses of each statement -/

theorem witness_PackInRangeEncodesExactlyTheOperand :
    InRange9 (0xFF00#16 : Half).toInt ∧ InRange9 (0x00FF#16 : Half).toInt := by decide
theorem witness_PackOutOfRangeWrapsSilently :
    ¬ InRange9 (0x0100#16 : Half).toInt ∧ ¬ InRange9 (0xFEFF#16 : Half).toInt ∧ ¬ InRange9 (0x8000#16 : Half).toInt := by decide
theorem witness_OutputBitsAreCopiesOfOperandBitsOrZero :
    (0 < 8 ∧ 7 < 8) ∧ (0 < 9 ∧ 8 < 9) ∧ (9 ≤ 9 ∧ 9 < 16) ∧ (9 ≤ 15 ∧ 15 < 16) ∧ 6 < 7 := by decide
theorem witness_EveryOperandIsLegalAndIgnoredBitsAreIgnored :
    (0x80#8).getLsbD 7 = (0xFF#8).getLsbD 7 ∧ (0x00#8).getLsbD 7 = (0x7F#8).getLsbD 7 := by decide
theorem witness_SixteenBitContainersCarryTheCount :
    (0x0032#16).extractLsb' 0 9 = (0xFE32#16).extractLsb' 0 9 ∧ (9 ≤ 15 ∧ 15 < 16) := by decide
theorem witness_UnpackSignExtendsNegativeTemperatures :
    (0x80#8).getLsbD 7 = true ∧ (0x7F#8).getLsbD 7 = false := by decide
theorem witness_UnpackThenPackClearsTheIgnoredBits :
    canonicalLo 0x80#8 = true ∧ canonicalLo 0x00#8 = true ∧ canonicalLo 0x01#8 = false := by decide
theorem witness_PackThenUnpackInRangeIsTheIdentity : InRange9 (-256) ∧ InRange9 255 ∧ ¬ InRange9 256 := by decide
theorem witness_RepresentableTemperaturesAndCanonicalPairsCorrespond :
    canonicalLo 0x80#8 = true ∧ canonicalLo 0x00#8 = true := by decide
theorem witness_PackedPairsCompareAsSignedWords : canonicalLo 0x80#8 = true ∧ canonicalLo 0x00#8 = true := by decide
theorem witness_InterleavingOfTheTwoUnitsDoesNotMatter :
    [Instr.unpack 1 2, .pack 3, .unpack 4 5].filter Instr.onDec = [Instr.pack 3, .unpack 1 2, .unpack 4 5].filter Instr.onDec ∧
    ([Instr.unpack 1 2, .pack 3, .unpack 4 5].filter fun i => !i.onDec) =
      ([Instr.pack 3, .unpack 1 2, .unpack 4 5].filter fun i => !i.onDec) := by decide
theorem witness_LinesAtTheSameMomentMayBeTakenInEitherOrder :
    let s := withLines [.atOnce (.unpackw 0xE77F#16) (.packt ⟨1275, 1⟩)]
    s.program = .atOnce (.unpackw 0xE77F#16) (.packt ⟨1275, 1⟩) :: [] ∧
      (DecOp.unpackw 0xE77F#16).instr s = .ok (.unpack 0xE7#8 0x7F#8) ∧
      (EncOp.packt ⟨1275, 1⟩).instr s = .ok (.pack 0x00FF#16) := ⟨rfl, rfl, rfl⟩
theorem witness_IgnoredInputBitsReachNoOutput :
    let s := State.reset.driveDecLo (Levels.ofBits 0x80#8)
    let t := State.reset.driveDecLo (Levels.ofBits 0xFF#8)
    s.dec.hi = t.dec.hi ∧ s.dec.lo[7] = t.dec.lo[7] ∧ s ≠ t ∧
      (∀ (i : Nat) (h : i < 9), (State.reset.driveEncV (Levels.ofBits 0x0032#16)).enc.v[i] =
        (State.reset.driveEncV (Levels.ofBits 0xFE32#16)).enc.v[i]) := by decide
theorem witness_OutputsFollowTheInputsAtEveryMoment :
    let s := ((State.reset.driveDecHi (Levels.ofBits 0xE7#8)).driveDecLo (Levels.ofBits 0x7F#8)).driveEncV (Levels.ofBits 0#16)
    (s.dec.hi = Levels.ofBits 0xE7#8 ∧ s.dec.lo = Levels.ofBits 0x7F#8 ∧ s.enc.v = Levels.ofBits 0#16) ∧
      State.reset.dec.hi = Levels.undriven 8 ∧ State.reset.dec.lo = Levels.undriven 8 ∧
      State.reset.enc.v = Levels.undriven 16 := by decide
theorem witness_RepeatingAnOperationGivesTheSameResult :
    (Instr.unpack 0xE7#8 0x00#8).onDec = true ∧ (Instr.pack 0x0032#16).onDec = false := by decide
theorem witness_OperationWordsAndOperationsCorrespond : 0 < 2 ^ 17 ∧ 0x1FFFF < 2 ^ 17 := by decide
theorem witness_StepRunsTheDecodedOperation :
    (withLines [.word 0x1FFCE]).program = .word 0x1FFCE :: [] ∧ decodeWord 0x1FFCE = .ok (.pack 0xFFCE#16) ∧
      0x1FFFF < 2 ^ 17 := by decide
/-- A record of two PACKs and an UNPACK, with this line to apply. -/
def recorded (l : Line) : State :=
  { withLines [l] with
    dec := ⟨Levels.undriven 8, Levels.undriven 8, [⟨0xE7#8, 0x7F#8, 0x1CE#9, 0xFFCE#16⟩]⟩
    enc := ⟨Levels.undriven 16, [⟨0x00A0#16, 0x50#8, 0x00#8⟩, ⟨0x0033#16, 0x19#8, 0x80#8⟩]⟩ }

/-- Names with different places, a wire beside a literal, a routed `dec_half` and a routed `PACKW` word. -/
theorem witness_LinesRouteRecordedResultsToLaterOperands :
    (let s := recorded (.dec (.unpack (.hiOf 0) (.loOf 1)));
      (ByteOperand.hiOf 0).Carries s 0x50#8 ∧ (ByteOperand.loOf 1).Carries s 0x80#8 ∧
        s.program = .dec (.unpack (.hiOf 0) (.loOf 1)) :: []) ∧
    (let s := recorded (.enc (.packw (.wordOf 1)));
      (IntOperand.wordOf 1).Carries s 0x1980#16 ∧ s.program = .enc (.packw (.wordOf 1)) :: []) ∧
    (let s := recorded (.atOnce (.unpack (.wire (Levels.ofBits 0xFF#8)) (.lit 0x80#8)) (.pack (.halfOf 0)));
      (ByteOperand.wire (Levels.ofBits 0xFF#8)).Carries s 0xFF#8 ∧ (ByteOperand.lit 0x80#8).Carries s 0x80#8 ∧
        (IntOperand.halfOf 0).Carries s 0xFFCE#16 ∧
        s.program = .atOnce (.unpack (.wire (Levels.ofBits 0xFF#8)) (.lit 0x80#8)) (.pack (.halfOf 0)) :: []) :=
  ⟨⟨⟨_, rfl, rfl⟩, ⟨_, rfl, rfl⟩, rfl⟩, ⟨⟨_, rfl, rfl⟩, rfl⟩, ⟨rfl, rfl, ⟨_, rfl, rfl⟩, rfl⟩⟩

theorem witness_PseudoOperationsAreTheirExpansions :
    (Decimal.value ⟨-1280, 1⟩ = tempOf (-256) ∧ InRange9 (-256)) ∧ (Decimal.value ⟨1275, 1⟩ = tempOf 255 ∧ InRange9 255) ∧
      (¬ ∃ n : Int, Decimal.value ⟨128, 0⟩ = tempOf n ∧ InRange9 n) ∧
      (withLines [.enc (.packt ⟨-1280, 1⟩)]).program = .enc (.packt ⟨-1280, 1⟩) :: [] ∧
      (withLines [.enc (.packt ⟨128, 0⟩)]).program = .enc (.packt ⟨128, 0⟩) :: [] ∧
      (withLines [.dec (.unpackw 0xE77F#16)]).program = .dec (.unpackw 0xE77F#16) :: [] ∧
      (withLines [.enc (.packw (.lit 0xABCD#16))]).program = .enc (.packw (.lit 0xABCD#16)) :: [] := by
  refine ⟨⟨by norm_num [Decimal.value, tempOf], by decide⟩, ⟨by norm_num [Decimal.value, tempOf], by decide⟩, ?_,
    rfl, rfl, rfl, rfl⟩
  rintro ⟨n, h, hn⟩
  have h2 : n = 256 := by
    have h3 : (n : ℚ) = 256 := by
      norm_num [Decimal.value, tempOf] at h
      linarith
    exact_mod_cast h3
  subst h2
  exact absurd hn (by decide)
theorem witness_UndefinedOperandsAreRefused :
    (let s := recorded (.dec (.unpack (.lit 0#8) (.loOf 2)));
      (ByteOperand.loOf 2).Undefined s ∧ s.program = .dec (.unpack (.lit 0#8) (.loOf 2)) :: []) ∧
    (let s := recorded (.atOnce (.unpack (.wire torn8) (.lit 0#8)) (.packt ⟨253, 1⟩));
      (ByteOperand.wire torn8).Undefined s ∧
        s.program = .atOnce (.unpack (.wire torn8) (.lit 0#8)) (.packt ⟨253, 1⟩) :: []) ∧
    (let s := recorded (.enc (.packw (.wire torn16)));
      (IntOperand.wire torn16).Undefined s ∧ s.program = .enc (.packw (.wire torn16)) :: []) ∧
    (let s := recorded (.atOnce (.unpackw 0#16) (.pack (.halfOf 1)));
      (IntOperand.halfOf 1).Undefined s ∧ s.program = .atOnce (.unpackw 0#16) (.pack (.halfOf 1)) :: []) :=
  ⟨⟨Nat.le_refl 2, rfl⟩, ⟨⟨3, by decide, rfl⟩, rfl⟩, ⟨⟨15, by decide, rfl⟩, rfl⟩, ⟨Nat.le_refl 1, rfl⟩⟩
theorem witness_StepCompletesExactlyOnWellFormedLines :
    (withLines [.word 0x20000]).lineReady = false ∧ (withLines [.word 0x1FFFF]).lineReady = true := by decide
/-- Right after reset (an undriven `dec_lo`), in either order. -/
theorem witness_DrivingThePortsOneByOneGivesTheSameOutputs :
    (let s := withLines [.driveDecHi (Levels.ofBits 0xE7#8), .driveDecLo (Levels.ofBits 0x80#8)];
      s.dec.lo[7] = none ∧ s.program = .driveDecHi (Levels.ofBits 0xE7#8) :: .driveDecLo (Levels.ofBits 0x80#8) :: []) ∧
    (let s := withLines [.driveDecLo (Levels.ofBits 0x80#8), .driveDecHi (Levels.ofBits 0xE7#8)];
      s.program = .driveDecLo (Levels.ofBits 0x80#8) :: .driveDecHi (Levels.ofBits 0xE7#8) :: []) ∧
    (withLines [.driveEncV (Levels.ofBits 0xFFCE#16)]).program = .driveEncV (Levels.ofBits 0xFFCE#16) :: [] :=
  ⟨⟨rfl, rfl⟩, rfl, rfl⟩
theorem witness_DrivingAPortChangesNothingElse :
    (withLines [.driveDecHi torn8]).program = .driveDecHi torn8 :: [] ∧
      (withLines [.driveDecLo torn8]).program = .driveDecLo torn8 :: [] ∧
      (withLines [.driveEncV torn16]).program = .driveEncV torn16 :: [] := ⟨rfl, rfl, rfl⟩
theorem witness_OutputBitsFollowTheirInputBitsOnPartlyDrivenPorts :
    (0 < 8 ∧ 7 < 8) ∧ (0 < 9 ∧ 8 < 9) ∧ (9 < 16 ∧ 9 ≤ 9) ∧ (15 < 16 ∧ 9 ≤ 15) ∧ 6 < 7 := by decide
theorem witness_StepsKeepRecordedResults : (nextOf (step (withLines [.word 0x01900]))).isSome = true := by decide
theorem witness_EveryStepKeepsTheRecordedResultsLawful :
    let s := (withLines [.word 0x01900]).recordDec ⟨0xE7#8, 0x7F#8, 0x1CE#9, 0xFFCE#16⟩
    s.RecordsLawful ∧ ∃ t, step s = .next t := by
  refine ⟨⟨fun r hr => ?_, fun r hr => ?_⟩, _, rfl⟩
  · obtain rfl : r = ⟨0xE7#8, 0x7F#8, 0x1CE#9, 0xFFCE#16⟩ := by simpa [withLines, State.reset] using hr
    unfold DecRecord.Lawful
    decide
  · simp [withLines, State.reset] at hr

end Sys2Proof.Tests
end

/-! PROOFS. The range of the representable temperatures (spec/00_scope.md R5, R6). -/
section
namespace Sys2Proof.Machine

theorem inRange9_iff (n : Int) : InRange9 n ↔ -256 ≤ n ∧ n ≤ 255 := by
  simp [InRange9, inRange9]

theorem inRange9_toInt (q : Count) : InRange9 q.toInt := by
  have hlow : -256 ≤ q.toInt := BitVec.le_toInt q
  have hhigh : q.toInt < 256 := BitVec.toInt_lt
  exact (inRange9_iff _).2 ⟨hlow, by omega⟩

theorem inRange9_iff_exists_count (n : Int) : InRange9 n ↔ ∃ q : Count, q.toInt = n := by
  constructor
  · intro hn
    obtain ⟨hlow, hhigh⟩ := (inRange9_iff n).1 hn
    exact ⟨BitVec.ofInt 9 n, BitVec.toInt_ofInt_eq_self (by decide) hlow (Int.lt_add_one_of_le hhigh)⟩
  · rintro ⟨q, rfl⟩
    exact inRange9_toInt q

theorem tempOf_eq_mul_half (n : Int) : tempOf n = n * (1 / 2 : ℚ) := by
  rw [tempOf, div_eq_mul_one_div]

/-- Halving keeps the order, so the bounds on the count are the bounds on the temperature. -/
theorem inRange9_iff_tempOf_mem (n : Int) : InRange9 n ↔ -128 ≤ tempOf n ∧ tempOf n ≤ 255 / 2 := by
  have hlow : -128 ≤ tempOf n ↔ -256 ≤ n := by
    rw [tempOf, le_div_iff₀ two_pos, show (-128 : ℚ) * 2 = (-256 : Int) by norm_num, Int.cast_le]
  have hhigh : tempOf n ≤ 255 / 2 ↔ n ≤ 255 := by
    rw [tempOf, div_le_div_iff_of_pos_right two_pos, ← Int.cast_ofNat, Int.cast_le]
  rw [inRange9_iff, hlow, hhigh]

/-- A temperature is representable exactly when it is a multiple of a half degree within the bounds (R6). -/
theorem exists_tempOf_inRange9_iff (t : ℚ) :
    (∃ n : Int, t = tempOf n ∧ InRange9 n) ↔ (∃ k : Int, t = k * (1 / 2 : ℚ)) ∧ -128 ≤ t ∧ t ≤ 255 / 2 := by
  constructor
  · rintro ⟨n, rfl, hn⟩
    exact ⟨⟨n, tempOf_eq_mul_half n⟩, (inRange9_iff_tempOf_mem n).1 hn⟩
  · rintro ⟨⟨k, hk⟩, hbounds⟩
    obtain rfl : t = tempOf k := hk.trans (tempOf_eq_mul_half k).symm
    exact ⟨k, rfl, (inRange9_iff_tempOf_mem k).2 hbounds⟩

/-- Settles O16: the half degrees in range are the counts in range, since `tempOf` is multiplication by 1/2. -/
theorem representableTemperaturesAreTheHalfDegreesInRange :
    Obligations.RepresentableTemperaturesAreTheHalfDegreesInRange :=
  ⟨inRange9_iff, inRange9_iff_exists_count, exists_tempOf_inRange9_iff⟩

end Sys2Proof.Machine
end

/-! PROOFS. The output ports as functions of the levels on the input ports (spec/10_state.md R12, R17). -/
section
namespace Sys2Proof.Machine

theorem decQ_eq_ofBits {s : State} {hi lo : Byte} (hhi : s.dec.hi = Levels.ofBits hi)
    (hlo : s.dec.lo = Levels.ofBits lo) :
    s.decQ = Levels.ofBits (pairBits hi lo) := by
  rw [← qOut_driven hi lo s.dec.log, ← hhi, ← hlo, State.decQ]

theorem decHalf_eq_ofBits {s : State} {hi lo : Byte} (hhi : s.dec.hi = Levels.ofBits hi)
    (hlo : s.dec.lo = Levels.ofBits lo) :
    s.decHalf = Levels.ofBits ((pairBits hi lo).signExtend 16) := by
  rw [← halfOut_driven hi lo s.dec.log, ← hhi, ← hlo, State.decHalf]

theorem encHi_eq_ofBits {s : State} {v : Half} (hv : s.enc.v = Levels.ofBits v) :
    s.encHi = Levels.ofBits (v.extractLsb' 1 8) := by
  rw [← hiOut_driven v s.enc.log, ← hv, State.encHi]

theorem encLo_eq_ofBits {s : State} {v : Half} (hv : s.enc.v = Levels.ofBits v) :
    s.encLo = Levels.ofBits (fracByte v) := by
  rw [← loOut_driven v s.enc.log, ← hv, State.encLo]

theorem getElem_decQ (s : State) (i : Nat) (h : i < 9) :
    s.decQ[i] = if i = 0 then s.dec.lo[7] else s.dec.hi[i - 1] := by
  rw [State.decQ, DecUnit.qOut, Vector.getElem_ofFn]

theorem getElem_decHalf (s : State) (i : Nat) (h : i < 16) :
    s.decHalf[i] = if h9 : i < 9 then s.decQ[i] else s.dec.hi[7] := by
  rw [State.decHalf, DecUnit.halfOut, Vector.getElem_ofFn, State.decQ]

theorem getElem_encHi (s : State) (i : Nat) (h : i < 8) : s.encHi[i] = s.enc.v[i + 1] := by
  rw [State.encHi, EncUnit.hiOut, Vector.getElem_ofFn]

theorem getElem_encLo (s : State) (i : Nat) (h : i < 8) : s.encLo[i] = if i = 7 then s.enc.v[0] else some false := by
  rw [State.encLo, EncUnit.loOut, Vector.getElem_ofFn]

theorem encLo_low_eq_zero (s : State) (i : Nat) (h : i < 7) : s.encLo[i] = some false := by
  rw [getElem_encLo, if_neg (Nat.ne_of_lt h)]

theorem decQ_eq_undriven {s : State} (hhi : s.dec.hi = Levels.undriven 8) (hlo : s.dec.lo = Levels.undriven 8) :
    s.decQ = Levels.undriven 9 := by
  ext i h : 1
  simp [getElem_decQ, hhi, hlo]

theorem decHalf_eq_undriven {s : State} (hhi : s.dec.hi = Levels.undriven 8) (hlo : s.dec.lo = Levels.undriven 8) :
    s.decHalf = Levels.undriven 16 := by
  ext i h : 1
  simp [getElem_decHalf, decQ_eq_undriven hhi hlo, hhi]

theorem encHi_eq_undriven {s : State} (hv : s.enc.v = Levels.undriven 16) : s.encHi = Levels.undriven 8 := by
  ext i h : 1
  simp [getElem_encHi, hv]

theorem encLo_seven_eq_none {s : State} (hv : s.enc.v = Levels.undriven 16) : s.encLo[7] = none := by
  simp [getElem_encLo, hv]

/-- Settles O21, one lemma per output port and condition of its inputs: driven, undriven, and `enc_lo[6:0]` in any case. -/
theorem outputsFollowTheInputsAtEveryMoment : Obligations.OutputsFollowTheInputsAtEveryMoment := by
  intro s
  refine ⟨fun hi lo hhi hlo => ?_, fun v hv => ?_, fun hhi hlo => ?_, fun hv => ?_, encLo_low_eq_zero s⟩
  · exact ⟨decQ_eq_ofBits hhi hlo, decHalf_eq_ofBits hhi hlo⟩
  · exact ⟨encHi_eq_ofBits hv, encLo_eq_ofBits hv⟩
  · exact ⟨decQ_eq_undriven hhi hlo, decHalf_eq_undriven hhi hlo⟩
  · exact ⟨encHi_eq_undriven hv, encLo_seven_eq_none hv⟩

end Sys2Proof.Machine
end

/-! PROOFS. The packed pair as one word (spec/20_memory.md R22), and what the ports show after an operation. -/
section
namespace Sys2Proof.Machine

/-- UNPACK completes, and the outputs of DEC show the nine bits of the pair and their sign extension. -/
theorem exec_unpack_ports (hi lo : Byte) (s : State) : ∃ t, exec (.unpack hi lo) s = .next t ∧
    t.decQ = Levels.ofBits (pairBits hi lo) ∧ t.decHalf = Levels.ofBits ((pairBits hi lo).signExtend 16) :=
  ⟨_, rfl, decQ_eq_ofBits rfl rfl, decHalf_eq_ofBits rfl rfl⟩

/-- PACK completes, and the outputs of ENC show the pair of the operand's low nine bits. -/
theorem exec_pack_ports (v : Half) (s : State) : ∃ t, exec (.pack v) s = .next t ∧
    t.encHi = Levels.ofBits (v.extractLsb' 1 8) ∧ t.encLo = Levels.ofBits (fracByte v) :=
  ⟨_, rfl, encHi_eq_ofBits rfl, encLo_eq_ofBits rfl⟩

theorem getElem_packedWord (hi lo : Byte) (i : Nat) (h : i < 16) :
    (packedWord hi lo)[i] = if h8 : i < 8 then lo[i] else hi[i - 8] :=
  BitVec.getElem_append (x := hi) (y := lo) h

/-- The nine bits of a pair are the top nine of its word. -/
theorem pairBits_eq_extract_packedWord (hi lo : Byte) : pairBits hi lo = (packedWord hi lo).extractLsb' 7 9 := by
  ext i h
  rw [getElem_pairBits, BitVec.getElem_extractLsb', BitVec.getLsbD_eq_getElem (show 7 + i < 16 by omega),
    getElem_packedWord]
  rcases i with _ | i
  · rfl
  · simp [BitVec.getLsbD_eq_getElem (show i < 8 by omega), show ¬ 7 + (i + 1) < 8 by omega,
      show 7 + (i + 1) - 8 = i by omega]

/-- The word of the pair that PACK produces: the low nine bits of the operand above seven zeros. -/
theorem packedWord_extract_fracByte (v : Half) :
    packedWord (v.extractLsb' 1 8) (fracByte v) = (v.extractLsb' 0 9 ++ 0#7 : Half) := by
  ext i h
  rw [getElem_packedWord, BitVec.getElem_append (x := v.extractLsb' 0 9) (y := 0#7) h]
  by_cases h8 : i < 8
  · by_cases h7 : i = 7
    · subst h7; simp [getElem_fracByte]
    · simp [getElem_fracByte, h8, h7, show i < 7 by omega]
  · simp [h8, show ¬ i < 7 by omega, show 1 + (i - 8) = i - 7 by omega]

/-- Settles O10: both operations go through the pair, whose nine bits are the top of its word. -/
theorem packedWordHoldsTheCountLeftJustified : Obligations.PackedWordHoldsTheCountLeftJustified := by
  refine ⟨fun hi lo s => ?_, fun v s => ?_⟩
  · obtain ⟨t, ht, hq, -⟩ := exec_unpack_ports hi lo s
    refine ⟨t, _, ht, hq, pairBits_eq_extract_packedWord hi lo, ?_, ?_⟩
    · simp [pairBits_eq_extract_packedWord, BitVec.msb_eq_getLsbD_last]
    · simp [pairBits_eq_extract_packedWord]
  · obtain ⟨t, ht, hhi, hlo⟩ := exec_pack_ports v s
    exact ⟨t, _, _, ht, hhi, hlo, packedWord_extract_fracByte v⟩

end Sys2Proof.Machine
end

/-! PROOFS. The decoder and the encoder of operation words (spec/30_encoding.md R41, R42). -/
section
namespace Sys2Proof

theorem decodeWord_ofNat {n : Nat} (h : n < 2 ^ 17) : decodeWord n = .ok (decode (BitVec.ofNat 17 n)) := if_pos h

theorem decodeWord_toNat (w : OpWord) : decodeWord w.toNat = .ok (decode w) := by
  rw [decodeWord_ofNat w.isLt, BitVec.ofNat_toNat, BitVec.setWidth_eq]

theorem accepts_iff (r : OpcodeRow) (w : OpWord) : r.accepts w = true ↔ w &&& r.mask = r.pattern := beq_iff_eq

/-- Row UNPACK accepts the words whose bit 16, the unit, is 0. -/
theorem unpackRow_accepts_iff_bit (w : OpWord) : unpackRow.accepts w = true ↔ w.getLsbD 16 = false := by
  have hmsb : w.getLsbD 16 = w.msb := (BitVec.msb_eq_getLsbD_last w).symm
  rw [unpackRow_accepts_iff, hmsb, BitVec.msb_eq_false_iff_two_mul_lt]
  omega

/-- Row PACK accepts the words that row UNPACK does not. -/
theorem packRow_accepts_of_not_unpackRow {w : OpWord} (h : ¬ unpackRow.accepts w = true) :
    packRow.accepts w = true := by
  rw [unpackRow_accepts_iff] at h
  exact (packRow_accepts_iff w).2 (Nat.le_of_not_lt h)

theorem decode_of_unpackRow {w : OpWord} (h : unpackRow.accepts w = true) :
    decode w = .unpack (w.extractLsb' 8 8) (w.extractLsb' 0 8) := if_pos h

theorem decode_of_not_unpackRow {w : OpWord} (h : ¬ unpackRow.accepts w = true) :
    decode w = .pack (w.extractLsb' 0 16) := if_neg h

theorem decode_of_bit_false {w : OpWord} (h : w.getLsbD 16 = false) :
    decode w = .unpack (w.extractLsb' 8 8) (w.extractLsb' 0 8) :=
  decode_of_unpackRow ((unpackRow_accepts_iff_bit w).2 h)

theorem decode_of_bit_true {w : OpWord} (h : w.getLsbD 16 = true) : decode w = .pack (w.extractLsb' 0 16) :=
  decode_of_not_unpackRow (by simp [unpackRow_accepts_iff_bit, h])

/-- The two bytes of a word, side by side, are its 16-bit operand field. -/
theorem packedWord_extract (w : OpWord) :
    Machine.packedWord (w.extractLsb' 8 8) (w.extractLsb' 0 8) = w.extractLsb' 0 16 :=
  BitVec.extractLsb'_append_extractLsb'_eq_extractLsb' rfl

theorem wordHi_packedWord (hi lo : Byte) : Machine.wordHi (Machine.packedWord hi lo) = hi :=
  (BitVec.extractLsb'_append_eq_of_le (Nat.le_refl 8)).trans BitVec.extractLsb'_eq_self

theorem wordLo_packedWord (hi lo : Byte) : Machine.wordLo (Machine.packedWord hi lo) = lo :=
  BitVec.extractLsb'_append_eq_right

theorem decode_encode (i : Instr) : decode (encode i) = i := by
  cases i with
  | unpack hi lo =>
    have hoperand : (encode (.unpack hi lo)).extractLsb' 0 16 = Machine.packedWord hi lo :=
      BitVec.extractLsb'_append_eq_right
    have hhi : (encode (.unpack hi lo)).extractLsb' 8 8 = hi := by
      rw [← BitVec.extractLsb'_extractLsb'_of_le (Nat.le_refl 16), hoperand]
      exact wordHi_packedWord hi lo
    have hlo : (encode (.unpack hi lo)).extractLsb' 0 8 = lo := by
      rw [← BitVec.extractLsb'_extractLsb'_of_le (show 0 + 8 ≤ 16 by decide), hoperand]
      exact wordLo_packedWord hi lo
    rw [decode_of_bit_false (Laws.UnitBit.unpack hi lo), hhi, hlo]
  | pack v =>
    rw [decode_of_bit_true (Laws.UnitBit.pack v)]
    exact congrArg Instr.pack BitVec.extractLsb'_append_eq_right

/-- A word is its unit bit above its operand field. -/
theorem unit_append_operand (w : OpWord) : w.extractLsb' 16 1 ++ w.extractLsb' 0 16 = w :=
  (BitVec.extractLsb'_append_extractLsb'_eq_extractLsb' rfl).trans BitVec.extractLsb'_eq_self

theorem extract_unit (w : OpWord) : w.extractLsb' 16 1 = BitVec.ofBool (w.getLsbD 16) := by
  ext i h
  obtain rfl : i = 0 := by omega
  simp

theorem encode_decode (w : OpWord) : encode (decode w) = w := by
  cases h : w.getLsbD 16 with
  | false =>
    calc encode (decode w)
      _ = 0#1 ++ Machine.packedWord (w.extractLsb' 8 8) (w.extractLsb' 0 8) := by rw [decode_of_bit_false h]; rfl
      _ = w.extractLsb' 16 1 ++ w.extractLsb' 0 16 := by rw [packedWord_extract, extract_unit, h]; rfl
      _ = w := unit_append_operand w
  | true =>
    calc encode (decode w)
      _ = 1#1 ++ w.extractLsb' 0 16 := by rw [decode_of_bit_true h]; rfl
      _ = w.extractLsb' 16 1 ++ w.extractLsb' 0 16 := by rw [extract_unit, h]; rfl
      _ = w := unit_append_operand w

/-- Settles O25: `decode` and `encode` are inverse to each other, and `decode` splits on bit 16. -/
theorem operationWordsAndOperationsCorrespond : Obligations.OperationWordsAndOperationsCorrespond := by
  refine ⟨fun i => ?_, fun n hn => ?_, fun w => ?_⟩
  · rw [decodeWord_toNat, decode_encode]
  · have hdec := decodeWord_ofNat hn
    refine ⟨decode (BitVec.ofNat 17 n), ⟨hdec, ?_⟩, fun j ⟨hj, _⟩ => Except.ok.inj (hj.symm.trans hdec)⟩
    rw [encode_decode, BitVec.toNat_ofNat, Nat.mod_eq_of_lt hn]
  · rw [decodeWord_toNat]
    cases h : w.getLsbD 16 with
    | false => exact .inl ⟨rfl, _, _, congrArg Except.ok (decode_of_bit_false h), packedWord_extract w⟩
    | true => exact .inr ⟨rfl, congrArg Except.ok (decode_of_bit_true h)⟩

/-- Settles O26: a row accepts a word when the masked word is the row's match, and one of the two rows does. -/
theorem opcodeMapSelectsTheUnitByBit16 : Obligations.OpcodeMapSelectsTheUnitByBit16 := by
  intro w
  rw [decodeWord_toNat]
  by_cases h : unpackRow.accepts w = true
  · exact .inl ⟨(accepts_iff unpackRow w).1 h, congrArg Except.ok (decode_of_unpackRow h)⟩
  · exact .inr ⟨(accepts_iff packRow w).1 (packRow_accepts_of_not_unpackRow h),
      congrArg Except.ok (decode_of_not_unpackRow h)⟩

end Sys2Proof
end

/-! PROOFS. The bits of the operands that the outputs carry, and the two 16-bit containers (spec/30_encoding.md R37, R38, R39). -/
section
namespace Sys2Proof.Machine

theorem getLsbD_pairBits_zero (hi lo : Byte) : (pairBits hi lo).getLsbD 0 = lo.getLsbD 7 := by
  rw [BitVec.getLsbD_eq_getElem (by decide), getElem_pairBits]
  rfl

theorem getLsbD_pairBits_succ (hi lo : Byte) (i : Nat) (h : i < 8) :
    (pairBits hi lo).getLsbD (i + 1) = hi.getLsbD i := by
  rw [BitVec.getLsbD_eq_getElem (by omega), getElem_pairBits]
  rfl

theorem getLsbD_signExtend_low (q : Count) (i : Nat) (h : i < 9) :
    (q.signExtend 16).getLsbD i = q.getLsbD i := by
  rw [BitVec.getLsbD_signExtend, if_pos h, decide_eq_true (Nat.lt_trans h (by decide)), Bool.true_and]

theorem getLsbD_signExtend_high (q : Count) (i : Nat) (h9 : 9 ≤ i) (h16 : i < 16) :
    (q.signExtend 16).getLsbD i = q.getLsbD 8 := by
  rw [BitVec.getLsbD_signExtend, if_neg (Nat.not_lt.2 h9), decide_eq_true h16, Bool.true_and,
    BitVec.msb_eq_getLsbD_last]

theorem getLsbD_fracByte_seven (v : Half) : (fracByte v).getLsbD 7 = v.getLsbD 0 := by
  rw [BitVec.getLsbD_eq_getElem (by decide), getElem_fracByte]
  rfl

theorem getLsbD_fracByte_low (v : Half) (i : Nat) (h : i < 7) : (fracByte v).getLsbD i = false := by
  simp [BitVec.getLsbD_eq_getElem (show i < 8 by omega), getElem_fracByte, show i ≠ 7 by omega]

/-- Settles O7: each output port shows a vector whose bits are known one by one. -/
theorem outputBitsAreCopiesOfOperandBitsOrZero : Obligations.OutputBitsAreCopiesOfOperandBitsOrZero := by
  intro hi lo v s
  obtain ⟨t, ht, hq, hh⟩ := exec_unpack_ports hi lo s
  obtain ⟨u, hu, ha, hb⟩ := exec_pack_ports v s
  refine ⟨t, u, _, _, _, _, ht, hq, hh, hu, ha, hb, getLsbD_pairBits_succ hi lo, getLsbD_pairBits_zero hi lo,
    getLsbD_signExtend_low _, fun i h9 h16 => ?_, fun i h => ?_, getLsbD_fracByte_seven v, getLsbD_fracByte_low v⟩
  · rw [getLsbD_signExtend_high _ i h9 h16, getLsbD_pairBits_succ hi lo 7 (by decide)]
  · simp [h, Nat.add_comm 1 i]

/-- UNPACK sees of the low byte its bit 7 only. -/
theorem pairBits_congr (hi : Byte) {lo lo' : Byte} (h : lo.getLsbD 7 = lo'.getLsbD 7) :
    pairBits hi lo = pairBits hi lo' := by
  refine BitVec.eq_of_getLsbD_eq fun i hi9 => ?_
  cases i with
  | zero => rw [getLsbD_pairBits_zero, getLsbD_pairBits_zero, h]
  | succ i => rw [getLsbD_pairBits_succ hi lo i (by omega), getLsbD_pairBits_succ hi lo' i (by omega)]

theorem fracByte_eq_extract (v : Half) : fracByte v = (v.extractLsb' 0 9).extractLsb' 0 1 ++ 0#7 := by
  rw [BitVec.extractLsb'_extractLsb'_of_le (by decide)]
  rfl

/-- PACK sees of its operand the low nine bits only. -/
theorem exec_pack_congr {v v' : Half} (s : State) (h : v.extractLsb' 0 9 = v'.extractLsb' 0 9) :
    ∃ t t', exec (.pack v) s = .next t ∧ exec (.pack v') s = .next t' ∧ t.encHi = t'.encHi ∧ t.encLo = t'.encLo := by
  obtain ⟨t, ht, hhi, hlo⟩ := exec_pack_ports v s
  obtain ⟨t', ht', hhi', hlo'⟩ := exec_pack_ports v' s
  have hbyte : v.extractLsb' 1 8 = v'.extractLsb' 1 8 := by
    have hcount := congrArg (BitVec.extractLsb' 1 8) h
    rwa [BitVec.extractLsb'_extractLsb'_of_le (by decide), BitVec.extractLsb'_extractLsb'_of_le (by decide)] at hcount
  have hfrac : fracByte v = fracByte v' := by rw [fracByte_eq_extract, fracByte_eq_extract, h]
  exact ⟨t, t', ht, ht', by rw [hhi, hhi', hbyte], by rw [hlo, hlo', hfrac]⟩

/-- The container gives its count back. -/
theorem extract_signExtend (q : Count) : (q.signExtend 16).extractLsb' 0 9 = q := by
  refine BitVec.eq_of_getLsbD_eq fun i h => ?_
  rw [BitVec.getLsbD_extractLsb', Nat.zero_add, getLsbD_signExtend_low q i h, decide_eq_true h, Bool.true_and]

theorem fracByte_low_eq_zero (v : Half) : (fracByte v).extractLsb' 0 7 = 0#7 :=
  BitVec.extractLsb'_append_eq_right

/-- Settles O8: the outputs depend on the pair's nine bits and on the operand's nine low bits. -/
theorem everyOperandIsLegalAndIgnoredBitsAreIgnored : Obligations.EveryOperandIsLegalAndIgnoredBitsAreIgnored := by
  refine ⟨fun hi lo lo' s h => ?_, fun v s => ?_⟩
  · obtain ⟨t, ht, hq, hh⟩ := exec_unpack_ports hi lo s
    obtain ⟨t', ht', hq', hh'⟩ := exec_unpack_ports hi lo' s
    exact ⟨t, t', ht, ht', by rw [hq, hq', pairBits_congr hi h], by rw [hh, hh', pairBits_congr hi h]⟩
  · have hcount : v.extractLsb' 0 9 = ((v.setWidth 9).signExtend 16).extractLsb' 0 9 := by
      rw [extract_signExtend, BitVec.setWidth_eq_extractLsb' (by decide)]
    obtain ⟨t, t', ht, ht', hhi, hlo⟩ := exec_pack_congr s hcount
    obtain ⟨u, hu, -, hfrac⟩ := exec_pack_ports v s
    obtain rfl : t = u := Host.Outcome.next.inj (ht.symm.trans hu)
    exact ⟨t, t', fracByte v, ht, ht', hhi, hlo, hfrac, fracByte_low_eq_zero v⟩

theorem toInt_signExtend (q : Count) : (q.signExtend 16).toInt = q.toInt :=
  BitVec.toInt_signExtend_of_le (by decide)

/-- An operand is in range exactly when it is a count in its container. -/
theorem inRange9_iff_eq_signExtend (v : Half) : InRange9 v.toInt ↔ v = (v.extractLsb' 0 9).signExtend 16 := by
  constructor
  · intro hv
    obtain ⟨q, hq⟩ := (inRange9_iff_exists_count v.toInt).1 hv
    obtain rfl : q.signExtend 16 = v := BitVec.toInt_inj.1 ((toInt_signExtend q).trans hq)
    rw [extract_signExtend]
  · intro hv
    rw [hv, toInt_signExtend]
    exact inRange9_toInt _

/-- Settles O9: the container is the sign extension of the count, on both sides. -/
theorem sixteenBitContainersCarryTheCount : Obligations.SixteenBitContainersCarryTheCount := by
  refine ⟨fun hi lo s => ?_, fun _ _ s h => exec_pack_congr s h, inRange9_iff_eq_signExtend⟩
  obtain ⟨t, ht, hq, hh⟩ := exec_unpack_ports hi lo s
  exact ⟨t, _, _, ht, hq, hh, extract_signExtend _, getLsbD_signExtend_high _, toInt_signExtend _⟩

end Sys2Proof.Machine
end

/-! PROOFS. UNPACK as arithmetic: its operation word, its sign and its reading as a temperature (spec/40_unpack.md R50, R51,
R52). -/
section
namespace Sys2Proof.Machine

theorem toNat_packedWord (hi lo : Byte) : (packedWord hi lo).toNat = hi.toNat * 256 + lo.toNat := by
  refine (BitVec.toNat_append hi lo).trans ?_
  rw [← Nat.shiftLeft_add_eq_or_of_lt lo.isLt, Nat.shiftLeft_eq]

/-- The unit bit of UNPACK is 0, so its operation word is the word of its pair. -/
theorem toNat_encode_unpack (hi lo : Byte) : (encode (.unpack hi lo)).toNat = hi.toNat * 256 + lo.toNat := by
  refine (BitVec.toNat_append 0#1 (packedWord hi lo)).trans ?_
  rw [BitVec.toNat_zero, Nat.zero_shiftLeft, Nat.zero_or, toNat_packedWord]

theorem decodeWord_unpack (hi lo : Byte) : decodeWord (hi.toNat * 256 + lo.toNat) = .ok (.unpack hi lo) := by
  rw [← toNat_encode_unpack, decodeWord_toNat, decode_encode]

/-- Settles O1: the ports show the nine bits of the pair, which are the shifts of R50 and the count of the pair. -/
theorem unpackGivesTheSignedHalfDegreeCount : Obligations.UnpackGivesTheSignedHalfDegreeCount := by
  intro hi lo s
  obtain ⟨t, ht, hq, hh⟩ := exec_unpack_ports hi lo s
  have hshift : t.decQ = Levels.ofBits (unpackQ hi lo) := by rw [hq, unpackQ_eq_pairBits]
  exact ⟨t, ht, hshift, hq, hh, pairBits_toInt hi lo, decodeWord_unpack hi lo⟩

theorem msb_pairBits (hi lo : Byte) : (pairBits hi lo).msb = hi.getLsbD 7 := by
  rw [BitVec.msb_eq_getLsbD_last, getLsbD_pairBits_succ hi lo 7 (by decide)]

theorem toInt_of_msb_true {q : Count} (h : q.msb = true) : q.toInt = (q.toNat : Int) - 512 := by
  rw [BitVec.toInt_eq_msb_cond, if_pos h]
  rfl

/-- Settles O2: bit 7 of the high byte is the sign bit of the count, and the container keeps the signed value. -/
theorem unpackSignExtendsNegativeTemperatures : Obligations.UnpackSignExtendsNegativeTemperatures := by
  intro hi lo s
  obtain ⟨t, ht, hq, hh⟩ := exec_unpack_ports hi lo s
  refine ⟨t, _, _, ht, hq, hh, rfl, toInt_signExtend _, ?_⟩
  rw [← msb_pairBits hi lo, toInt_signExtend]
  refine ⟨fun hneg => ?_, fun hpos => ?_⟩
  · exact ⟨BitVec.toInt_neg_of_msb_true hneg, toInt_of_msb_true hneg⟩
  · exact ⟨BitVec.toInt_nonneg_of_msb_false hpos, BitVec.toInt_eq_toNat_of_msb hpos⟩

/-- Rounding half degrees to whole degrees toward minus infinity is integer division by two. -/
theorem floor_tempOf (n : Int) : ⌊tempOf n⌋ = n / 2 := Rat.floor_intCast_div_natCast n 2

theorem pairCount_ediv_two (hi lo : Byte) : pairCount hi lo / 2 = hi.toInt := by
  have hfrac := (lo.extractLsb' 7 1).isLt
  rw [pairCount, fracOf_eq_extract]
  omega

theorem tempOf_pairCount (hi lo : Byte) :
    tempOf (pairCount hi lo) = (hi.toInt : ℚ) + (1 / 2 : ℚ) * ((lo.extractLsb' 7 1).toNat : ℚ) := by
  rw [tempOf, pairCount, fracOf_eq_extract]
  push_cast
  ring

/-- Settles O3: the count is the high byte above the fraction bit, and halving it splits it into the two. -/
theorem unpackReadsAsWholeDegreesPlusAHalf : Obligations.UnpackReadsAsWholeDegreesPlusAHalf := by
  intro hi lo s
  obtain ⟨t, ht, hq, -⟩ := exec_unpack_ports hi lo s
  refine ⟨t, _, ht, hq, BitVec.extractLsb'_append_eq_left, BitVec.extractLsb'_append_eq_right, ?_⟩
  rw [pairBits_toInt]
  refine ⟨?_, tempOf_pairCount hi lo, ?_⟩
  · rw [pairCount, fracOf_eq_extract]
  · rw [floor_tempOf, pairCount_ediv_two]

end Sys2Proof.Machine
end

/-! PROOFS. PACK as arithmetic: its operation word, the count its pair is the code of, and the silent wrap
(spec/41_pack.md R55, R56, R57). -/
section
namespace Sys2Proof.Machine

/-- The unit bit of PACK is 1, so its operation word is its operand above `0x10000`. -/
theorem toNat_encode_pack (v : Half) : (encode (.pack v)).toNat = 65536 + v.toNat := by
  refine (BitVec.toNat_append 1#1 v).trans ?_
  rw [← Nat.shiftLeft_add_eq_or_of_lt v.isLt]
  rfl

theorem decodeWord_pack (v : Half) : decodeWord (65536 + v.toNat) = .ok (.pack v) := by
  rw [← toNat_encode_pack, decodeWord_toNat, decode_encode]

/-- The bit that an arithmetic right shift fills in does not survive the narrowing to a byte. -/
theorem setWidth_sshiftRight_one (v : Half) : (v.sshiftRight 1).setWidth 8 = v.extractLsb' 1 8 := by
  ext i h
  rw [BitVec.getElem_setWidth, BitVec.getLsbD_sshiftRight, BitVec.getElem_extractLsb',
    if_pos (show 1 + i < 16 by omega)]
  simp [show i < 16 by omega]

/-- Settles O4: the ports show `v[8:1]` and `{v[0], 0000000}`, which are what the shifts of R55 leave in a byte. -/
theorem packGivesTheBytePair : Obligations.PackGivesTheBytePair := by
  intro v s
  obtain ⟨t, ht, hhi, hlo⟩ := exec_pack_ports v s
  have hlogical : t.encHi = Levels.ofBits (packHi v) := by rw [hhi, packHi_eq_extract]
  have harith : t.encHi = Levels.ofBits ((v.sshiftRight 1).setWidth 8) := by rw [hhi, setWidth_sshiftRight_one]
  have hleft : t.encLo = Levels.ofBits (packLo v) := by rw [hlo, packLo_eq_fracByte]
  exact ⟨t, ht, hlogical, harith, hhi, hleft, hlo, decodeWord_pack v⟩

/-- The pair that PACK produces holds the low nine bits of the operand. -/
theorem pairBits_extract_fracByte (v : Half) : pairBits (v.extractLsb' 1 8) (fracByte v) = v.setWidth 9 := by
  rw [pairBits_eq_extract_packedWord, packedWord_extract_fracByte, BitVec.setWidth_eq_extractLsb' (by decide)]
  exact BitVec.extractLsb'_append_eq_left

theorem pairCount_extract_fracByte (v : Half) :
    pairCount (v.extractLsb' 1 8) (fracByte v) = (v.setWidth 9).toInt := by
  rw [← pairBits_toInt, pairBits_extract_fracByte]

theorem canonicalLo_fracByte (v : Half) : canonicalLo (fracByte v) = true :=
  beq_iff_eq.2 (fracByte_low_eq_zero v)

theorem pairCount_emod_two (hi lo : Byte) : pairCount hi lo % 2 = fracOf lo := by
  have hfrac := (lo.extractLsb' 7 1).isLt
  rw [pairCount, fracOf_eq_extract]
  omega

/-- `inRange9_iff_eq_signExtend`, with the low nine bits written as a truncation. -/
theorem inRange9_iff_eq_signExtend_setWidth (v : Half) : InRange9 v.toInt ↔ v = (v.setWidth 9).signExtend 16 := by
  rw [BitVec.setWidth_eq_extractLsb' (by decide), inRange9_iff_eq_signExtend]

theorem toInt_setWidth_of_inRange9 {v : Half} (hv : InRange9 v.toInt) : (v.setWidth 9).toInt = v.toInt := by
  rw [← toInt_signExtend, ← (inRange9_iff_eq_signExtend_setWidth v).1 hv]

/-- Settles O5: in range the pair's count is the operand, and the count determines both bytes and what UNPACK returns. -/
theorem packInRangeEncodesExactlyTheOperand : Obligations.PackInRangeEncodesExactlyTheOperand := by
  intro v s hv
  obtain ⟨t, ht, hhi, hlo⟩ := exec_pack_ports v s
  obtain ⟨u, hu, -, hhalf⟩ := exec_unpack_ports (v.extractLsb' 1 8) (fracByte v) t
  have hcount : pairCount (v.extractLsb' 1 8) (fracByte v) = v.toInt := by
    rw [pairCount_extract_fracByte, toInt_setWidth_of_inRange9 hv]
  refine ⟨t, _, _, u, ht, hhi, hlo, pairBits_extract_fracByte v, ?_, ?_, canonicalLo_fracByte v, hu, ?_⟩
  · rw [floor_tempOf, ← hcount, pairCount_ediv_two]
  · rw [← hcount, pairCount_emod_two]
  · rw [hhalf, pairBits_extract_fracByte, ← (inRange9_iff_eq_signExtend_setWidth v).1 hv]

theorem toInt_setWidth_eq_bmod (v : Half) : (v.setWidth 9).toInt = v.toInt.bmod 512 := by
  rw [BitVec.toInt_setWidth, BitVec.toInt_eq_toNat_bmod, Int.bmod_bmod_of_dvd (by decide)]

/-- Dropping the upper seven bits moves the integer by a multiple of 512. -/
theorem toInt_setWidth_eq_add (v : Half) : ∃ k : Int, (v.setWidth 9).toInt = v.toInt + 512 * k := by
  rw [toInt_setWidth_eq_bmod]
  obtain ⟨k, hk⟩ : (512 : Int) ∣ v.toInt.bmod 512 - v.toInt := Int.dvd_bmod_sub_self
  exact ⟨k, by omega⟩

theorem tempOf_add_mul_512 (n k : Int) : tempOf (n + 512 * k) = tempOf n + 256 * (k : ℚ) := by
  rw [tempOf, tempOf]
  push_cast
  ring

/-- PACK leaves the block, unit DEC and the program as they are. -/
theorem exec_pack_frame {v : Half} {s t : State} (h : exec (.pack v) s = .next t) :
    t.block = s.block ∧ t.dec = s.dec ∧ t.program = s.program := by
  obtain ⟨_, _, hunpack, -⟩ | ⟨_, -, rfl⟩ := exec_cases h
  · cases hunpack
  · simp

/-- Settles O6: the pair's count is that of the low nine bits, so it is in range, and an operand out of range is not it. -/
theorem packOutOfRangeWrapsSilently : Obligations.PackOutOfRangeWrapsSilently := by
  intro v s
  refine ⟨not_congr (inRange9_iff_eq_signExtend_setWidth v), fun hv => ?_⟩
  obtain ⟨t, ht, hhi, hlo⟩ := exec_pack_ports v s
  obtain ⟨k, hk⟩ := toInt_setWidth_eq_add v
  have hrange := inRange9_toInt (v.setWidth 9)
  have hne : k ≠ 0 := by
    rintro rfl
    exact hv (by simpa [hk] using hrange)
  have hcount := pairCount_extract_fracByte v
  refine ⟨t, _, _, k, ht, hhi, hlo, rfl, rfl, hcount, ?_, hne, ?_, ?_, exec_pack_frame ht⟩
  · rwa [hcount]
  · rw [hcount, hk]
  · rw [hcount, hk, tempOf_add_mul_512]

end Sys2Proof.Machine
end

/-! PROOFS. What an operation's outputs say about its operand, and the laws that follow when one operation feeds the other
(spec/42_codec_laws.md R61 to R64). -/
section
namespace Sys2Proof.Machine

/-- A vector is `x` above `y` exactly when these are its two parts. -/
theorem eq_append_iff_extract (m n : Nat) {z : BitVec (m + n)} {x : BitVec m} {y : BitVec n} :
    z = x ++ y ↔ z.extractLsb' n m = x ∧ z.extractLsb' 0 n = y := by
  constructor
  · rintro rfl
    exact ⟨BitVec.extractLsb'_append_eq_left, BitVec.extractLsb'_append_eq_right⟩
  · rintro ⟨rfl, rfl⟩
    exact BitVec.extractLsb'_append_extractLsb'.symm

/-- One setting of the low bits completes a given upper part, when the upper part fits at all. -/
theorem existsUnique_eq_append_low_iff (m n : Nat) (z : BitVec (m + n)) (x : BitVec m) :
    (∃! y : BitVec n, z = x ++ y) ↔ z.extractLsb' n m = x := by
  simp [eq_append_iff_extract, ExistsUnique]

/-- One setting of the upper bits completes a given low part, when the low part fits at all. -/
theorem existsUnique_eq_append_high_iff (m n : Nat) (z : BitVec (m + n)) (y : BitVec n) :
    (∃! x : BitVec m, z = x ++ y) ↔ z.extractLsb' 0 n = y := by
  simp [eq_append_iff_extract, ExistsUnique]

/-- The nine bits of a pair are `q` exactly when the pair carries the parts of `q` in its high byte and its fraction bit. -/
theorem eq_pairBits_iff (q : Count) (hi lo : Byte) :
    q = pairBits hi lo ↔ q.extractLsb' 1 8 = hi ∧ q.extractLsb' 0 1 = lo.extractLsb' 7 1 :=
  eq_append_iff_extract 8 1

theorem canonicalLo_iff (lo : Byte) : canonicalLo lo = true ↔ lo.extractLsb' 0 7 = 0#7 := beq_iff_eq

/-- A low byte is the one that PACK of `v` produces exactly when it is canonical with `v`'s fraction bit. -/
theorem eq_fracByte_iff (v : Half) (lo : Byte) :
    lo = fracByte v ↔ canonicalLo lo = true ∧ v.extractLsb' 0 1 = lo.extractLsb' 7 1 := by
  rw [canonicalLo_iff, and_comm, eq_comm (a := v.extractLsb' 0 1)]
  exact eq_append_iff_extract 1 7

/-- Clearing the seven ignored bits keeps the fraction bit above seven zeros. -/
theorem and_fracMask (lo : Byte) : lo &&& 0x80#8 = (lo.extractLsb' 7 1 ++ 0#7 : Byte) := by
  have hsplit : lo = lo.extractLsb' 7 1 ++ lo.extractLsb' 0 7 := (eq_append_iff_extract 1 7).2 ⟨rfl, rfl⟩
  calc lo &&& 0x80#8
    _ = (lo.extractLsb' 7 1 ++ lo.extractLsb' 0 7) &&& (BitVec.allOnes 1 ++ 0#7) := by rw [← hsplit]; rfl
    _ = (lo.extractLsb' 7 1 &&& BitVec.allOnes 1) ++ (lo.extractLsb' 0 7 &&& 0#7) := BitVec.and_append
    _ = lo.extractLsb' 7 1 ++ 0#7 := by rw [BitVec.and_allOnes, BitVec.and_zero]

theorem canonicalLo_and_fracMask (lo : Byte) : canonicalLo (lo &&& 0x80#8) = true := by
  rw [canonicalLo_iff, and_fracMask]
  exact BitVec.extractLsb'_append_eq_right

theorem and_fracMask_of_canonicalLo {lo : Byte} (h : canonicalLo lo = true) : lo &&& 0x80#8 = lo := by
  rw [and_fracMask]
  exact ((eq_append_iff_extract 1 7).2 ⟨rfl, (canonicalLo_iff lo).1 h⟩).symm

theorem pairBits_and_fracMask (hi lo : Byte) : pairBits hi (lo &&& 0x80#8) = pairBits hi lo :=
  pairBits_congr hi (by simp)

/-- UNPACK shows the count `q` exactly for the pairs that carry `q` in their nine bits. -/
theorem exec_unpack_shows_iff (hi lo : Byte) (s : State) (q : Count) :
    (∃ t, exec (.unpack hi lo) s = .next t ∧ t.decQ = Levels.ofBits q) ↔ q = pairBits hi lo := by
  obtain ⟨t, ht, hq, -⟩ := exec_unpack_ports hi lo s
  simp [ht, hq, ofBits_inj, eq_comm]

/-- PACK shows the pair `(hi, lo)` exactly when the pair is canonical and holds the low nine bits of the operand. -/
theorem exec_pack_shows_iff (v : Half) (s : State) (hi lo : Byte) :
    (∃ t, exec (.pack v) s = .next t ∧ t.encHi = Levels.ofBits hi ∧ t.encLo = Levels.ofBits lo) ↔
      canonicalLo lo = true ∧ v.extractLsb' 0 9 = pairBits hi lo := by
  obtain ⟨t, ht, hhi, hlo⟩ := exec_pack_ports v s
  have hhigh : (v.extractLsb' 0 9).extractLsb' 1 8 = v.extractLsb' 1 8 := BitVec.extractLsb'_extractLsb'_of_le (by decide)
  have hfrac : (v.extractLsb' 0 9).extractLsb' 0 1 = v.extractLsb' 0 1 := BitVec.extractLsb'_extractLsb'_of_le (by decide)
  rw [eq_pairBits_iff, hhigh, hfrac]
  simp only [ht, Host.Outcome.next.injEq, exists_eq_left', hhi, hlo, ofBits_inj, eq_comm (a := fracByte v), eq_fracByte_iff]
  exact and_left_comm

/-- PACK completes, and UNPACK of the pair it shows completes with the operand's low nine bits and their sign extension. -/
theorem exec_pack_then_unpack (v : Half) (s : State) : ∃ (t : State) (hi lo : Byte) (u : State),
    exec (.pack v) s = .next t ∧ t.encHi = Levels.ofBits hi ∧ t.encLo = Levels.ofBits lo ∧
      exec (.unpack hi lo) t = .next u ∧ u.decQ = Levels.ofBits (v.extractLsb' 0 9) ∧
      u.decHalf = Levels.ofBits ((v.extractLsb' 0 9).signExtend 16) := by
  obtain ⟨t, ht, hhi, hlo⟩ := exec_pack_ports v s
  obtain ⟨-, hcount⟩ := (exec_pack_shows_iff v s _ _).1 ⟨t, ht, hhi, hlo⟩
  obtain ⟨u, hu, hq, hh⟩ := exec_unpack_ports (v.extractLsb' 1 8) (fracByte v) t
  rw [hcount]
  exact ⟨t, _, _, u, ht, hhi, hlo, hu, hq, hh⟩

/-- Settles O11: the container of the pair's count packs to the canonical pair that holds the same nine bits. -/
theorem unpackThenPackClearsTheIgnoredBits : Obligations.UnpackThenPackClearsTheIgnoredBits := by
  refine ⟨fun hi lo s => ?_, fun hi lo => ⟨?_, fun hcanon => ?_⟩⟩
  · obtain ⟨t, ht, -, hh⟩ := exec_unpack_ports hi lo s
    have hcount : ((pairBits hi lo).signExtend 16).extractLsb' 0 9 = pairBits hi (lo &&& 0x80#8) := by
      rw [extract_signExtend, pairBits_and_fracMask]
    obtain ⟨u, hu, huhi, hulo⟩ := (exec_pack_shows_iff _ t _ _).2 ⟨canonicalLo_and_fracMask lo, hcount⟩
    exact ⟨t, _, u, ht, hh, hu, huhi, hulo, fun hcanon => by rw [hulo, and_fracMask_of_canonicalLo hcanon]⟩
  · rintro ⟨v, s, hshows⟩
    exact ((exec_pack_shows_iff v s hi lo).1 hshows).1
  · exact ⟨_, State.reset, (exec_pack_shows_iff _ _ hi lo).2 ⟨hcanon, extract_signExtend (pairBits hi lo)⟩⟩

/-- Settles O12: an integer in range is the value of a count, and its operand is the count in its container. -/
theorem packThenUnpackInRangeIsTheIdentity : Obligations.PackThenUnpackInRangeIsTheIdentity := by
  intro n s hn
  obtain ⟨q, rfl⟩ := (inRange9_iff_exists_count n).1 hn
  obtain ⟨t, hi, lo, u, ht, hhi, hlo, hu, hq, hh⟩ := exec_pack_then_unpack (q.signExtend 16) s
  rw [extract_signExtend] at hh
  exact ⟨_, t, hi, lo, u, toInt_signExtend q, ht, hhi, hlo, hu, hh, hq, by rw [extract_signExtend]⟩

/-- Settles O13: dropping the upper seven bits moves the integer by a multiple of 512, by none exactly in range. -/
theorem packThenUnpackReducesModulo512 : Obligations.PackThenUnpackReducesModulo512 := by
  intro v s
  obtain ⟨t, hi, lo, u, ht, hhi, hlo, hu, hq, hh⟩ := exec_pack_then_unpack v s
  refine ⟨t, hi, lo, u, _, ht, hhi, hlo, hu, hq, hh, rfl, ?_, ?_, ?_⟩
  · rw [toInt_signExtend]
    exact inRange9_toInt _
  · obtain ⟨k, hk⟩ := toInt_setWidth_eq_add v
    rw [toInt_signExtend, ← BitVec.setWidth_eq_extractLsb' (by decide), hk, Int.add_mul_emod_self_left]
  · rw [inRange9_iff_eq_signExtend, BitVec.toInt_inj, eq_comm]

/-- The operand in range that packs to a canonical pair is the one that UNPACK of the pair gives. -/
theorem canonical_pair_existsUnique_operand {hi lo : Byte} (hcanon : canonicalLo lo = true) :
    ∃! v : Half, InRange9 v.toInt ∧ ∀ s : State, ∃ t u : State,
      exec (.pack v) s = .next t ∧ t.encHi = Levels.ofBits hi ∧ t.encLo = Levels.ofBits lo ∧
      exec (.unpack hi lo) s = .next u ∧ u.decHalf = Levels.ofBits v := by
  refine ⟨(pairBits hi lo).signExtend 16, ⟨?_, fun s => ?_⟩, fun v ⟨_, hv⟩ => ?_⟩
  · rw [toInt_signExtend]
    exact inRange9_toInt _
  · obtain ⟨t, ht, hhi, hlo⟩ := (exec_pack_shows_iff _ s hi lo).2 ⟨hcanon, extract_signExtend (pairBits hi lo)⟩
    obtain ⟨u, hu, -, hh⟩ := exec_unpack_ports hi lo s
    exact ⟨t, u, ht, hhi, hlo, hu, hh⟩
  · obtain ⟨_, u, -, -, -, hu, hh⟩ := hv State.reset
    obtain ⟨u', hu', -, hh'⟩ := exec_unpack_ports hi lo State.reset
    obtain rfl : u = u' := Host.Outcome.next.inj (hu.symm.trans hu')
    exact ofBits_inj.1 (hh.symm.trans hh')

/-- Settles O14: what the ports show is the nine bits of the pair, and any setting of the seven other bits goes with them. -/
theorem representableTemperaturesAndCanonicalPairsCorrespond :
    Obligations.RepresentableTemperaturesAndCanonicalPairsCorrespond := by
  refine ⟨fun v s => ?_, fun hi lo => canonical_pair_existsUnique_operand, fun q hi lo => ?_, fun v hi lo hcanon => ?_⟩
  · obtain ⟨t, ht, hhi, hlo⟩ := exec_pack_ports v s
    exact ⟨t, _, _, ht, hhi, hlo, canonicalLo_fracByte v⟩
  · have hfibre : (∃! x : BitVec 7, lo = q.extractLsb' 0 1 ++ x) ↔ lo.extractLsb' 7 1 = q.extractLsb' 0 1 :=
      existsUnique_eq_append_low_iff 1 7 lo _
    rw [hfibre, eq_comm (a := hi), eq_comm (a := lo.extractLsb' 7 1), ← eq_pairBits_iff]
    simp only [exec_unpack_shows_iff]
    exact ⟨fun h => h State.reset, fun h _ => h⟩
  · have hfibre : (∃! x : BitVec 7, v = x ++ pairBits hi lo) ↔ v.extractLsb' 0 9 = pairBits hi lo :=
      existsUnique_eq_append_high_iff 7 9 v _
    rw [hfibre]
    simp only [exec_pack_shows_iff, hcanon, true_and]
    exact ⟨fun h => h State.reset, fun h _ => h⟩

end Sys2Proof.Machine
end

/-! PROOFS. Order: a pair read as one signed word (spec/42_codec_laws.md R65). -/
section
namespace Sys2Proof.Machine

/-- The word of a pair is its nine bits above the seven ignored ones. -/
theorem packedWord_eq_pairBits_append (hi lo : Byte) :
    packedWord hi lo = (pairBits hi lo ++ lo.extractLsb' 0 7 : Half) := by
  refine (eq_append_iff_extract 9 7).2 ⟨(pairBits_eq_extract_packedWord hi lo).symm, ?_⟩
  exact BitVec.extractLsb'_append_eq_of_add_le (by decide)

theorem toInt_packedWord (hi lo : Byte) :
    (packedWord hi lo).toInt = 128 * (pairBits hi lo).toInt + ((lo.extractLsb' 0 7).toNat : Int) := by
  rw [packedWord_eq_pairBits_append]
  exact BitVec.toInt_append

theorem toInt_packedWord_of_canonicalLo (hi : Byte) {lo : Byte} (hcanon : canonicalLo lo = true) :
    (packedWord hi lo).toInt = 128 * (pairBits hi lo).toInt := by
  rw [toInt_packedWord, (canonicalLo_iff lo).1 hcanon]
  exact Int.add_zero _

/-- A canonical pair is the temperature with eight fraction bits. -/
theorem tempOf_pairBits_of_canonicalLo (hi : Byte) {lo : Byte} (hcanon : canonicalLo lo = true) :
    tempOf (pairBits hi lo).toInt = ((packedWord hi lo).toInt : ℚ) / 256 := by
  rw [toInt_packedWord_of_canonicalLo hi hcanon, tempOf]
  push_cast
  ring

/-- Scaling by 128 keeps the order, so canonical pairs compare as words. -/
theorem toInt_pairBits_lt_iff_of_canonicalLo (h1 h2 : Byte) {l1 l2 : Byte} (hc1 : canonicalLo l1 = true)
    (hc2 : canonicalLo l2 = true) :
    (pairBits h1 l1).toInt < (pairBits h2 l2).toInt ↔ (packedWord h1 l1).toInt < (packedWord h2 l2).toInt := by
  rw [toInt_packedWord_of_canonicalLo h1 hc1, toInt_packedWord_of_canonicalLo h2 hc2]
  exact (Int.mul_lt_mul_left (by decide)).symm

theorem toInt_pairBits_neg_iff (hi lo : Byte) : (pairBits hi lo).toInt < 0 ↔ hi.getLsbD 7 = true := by
  rw [← msb_pairBits hi lo, BitVec.msb_eq_toInt, decide_eq_true_iff]

/-- Settles O15: the count is the nine bits of the pair, which are the upper bits of its word. -/
theorem packedPairsCompareAsSignedWords : Obligations.PackedPairsCompareAsSignedWords := by
  intro h1 l1 h2 l2 s
  obtain ⟨t1, ht1, hq1, -⟩ := exec_unpack_ports h1 l1 s
  obtain ⟨t2, ht2, hq2, -⟩ := exec_unpack_ports h2 l2 s
  exact ⟨t1, t2, _, _, ht1, hq1, ht2, hq2, Iff.rfl, toInt_packedWord h1 l1, tempOf_pairBits_of_canonicalLo h1,
    toInt_pairBits_lt_iff_of_canonicalLo h1 h2, toInt_pairBits_neg_iff h1 l1⟩

end Sys2Proof.Machine
end

/-! PROOFS. Lists of operations, and the independence of a result from what came before it (spec/42_codec_laws.md R66). -/
section
namespace Sys2Proof.Machine

/-- Every operation completes, from every state. -/
theorem exec_completes (i : Instr) (s : State) : ∃ t, exec i s = .next t := by
  cases i with
  | unpack hi lo => exact ⟨_, rfl⟩
  | pack v => exact ⟨_, rfl⟩

theorem execAll_cons {i : Instr} {s t : State} (h : exec i s = .next t) (is : List Instr) :
    execAll (i :: is) s = execAll is t := by
  rw [execAll, h]

/-- A list of operations completes, and the operations that follow it go on from where it ends. -/
theorem execAll_append (is : List Instr) (s : State) :
    ∃ t, execAll is s = .next t ∧ ∀ js, execAll (is ++ js) s = execAll js t := by
  induction is generalizing s with
  | nil => exact ⟨s, rfl, fun _ => rfl⟩
  | cons i is ih =>
    obtain ⟨r, hr⟩ := exec_completes i s
    obtain ⟨t, ht, happend⟩ := ih r
    exact ⟨t, by rw [execAll_cons hr, ht], fun js => by rw [List.cons_append, execAll_cons hr, happend]⟩

theorem execAll_singleton (i : Instr) (s : State) : execAll [i] s = exec i s := by
  obtain ⟨t, ht⟩ := exec_completes i s
  rw [execAll_cons ht, ht, execAll]

/-- Settles O17: the earlier operations end in some state, and what the ports show after an operation is the same from every
state. -/
theorem resultsDoNotDependOnWhatCameBefore : Obligations.ResultsDoNotDependOnWhatCameBefore := by
  intro before s
  obtain ⟨r, -, happend⟩ := execAll_append before s
  have hlast (i : Instr) : execAll (before ++ [i]) s = exec i r := by rw [happend, execAll_singleton]
  refine ⟨fun hi lo => ?_, fun v => ?_⟩
  · obtain ⟨t, ht, hq, hh⟩ := exec_unpack_ports hi lo r
    obtain ⟨u, hu, hq', hh'⟩ := exec_unpack_ports hi lo State.reset
    exact ⟨t, u, (hlast _).trans ht, hu, hq.trans hq'.symm, hh.trans hh'.symm⟩
  · obtain ⟨t, ht, hhi, hlo⟩ := exec_pack_ports v r
    obtain ⟨u, hu, hhi', hlo'⟩ := exec_pack_ports v State.reset
    exact ⟨t, u, (hlast _).trans ht, hu, hhi.trans hhi'.symm, hlo.trans hlo'.symm⟩

end Sys2Proof.Machine
end

/-! PROOFS. What one operation changes and what it leaves as it was (spec/10_state.md R11). -/
section
namespace Sys2Proof.Machine

/-- UNPACK drives its pair and records the nine bits of it with their sign extension. -/
theorem exec_unpack_dec {hi lo : Byte} {s t : State} (h : exec (.unpack hi lo) s = .next t) :
    t.dec = ⟨Levels.ofBits hi, Levels.ofBits lo,
      s.dec.log ++ [⟨hi, lo, pairBits hi lo, (pairBits hi lo).signExtend 16⟩]⟩ := by
  rw [← unpackQ_eq_pairBits]
  cases h
  rfl

/-- PACK drives its operand and records the pair of its low nine bits. -/
theorem exec_pack_enc {v : Half} {s t : State} (h : exec (.pack v) s = .next t) :
    t.enc = ⟨Levels.ofBits v, s.enc.log ++ [⟨v, v.extractLsb' 1 8, fracByte v⟩]⟩ := by
  rw [← packHi_eq_extract, ← packLo_eq_fracByte]
  cases h
  rfl

theorem exec_unpack_log {hi lo : Byte} {s t : State} (h : exec (.unpack hi lo) s = .next t) :
    t.dec.log = s.dec.log ++ [⟨hi, lo, pairBits hi lo, (pairBits hi lo).signExtend 16⟩] := by
  rw [exec_unpack_dec h]

theorem exec_pack_log {v : Half} {s t : State} (h : exec (.pack v) s = .next t) :
    t.enc.log = s.enc.log ++ [⟨v, v.extractLsb' 1 8, fracByte v⟩] := by
  rw [exec_pack_enc h]

/-- UNPACK leaves the block, unit ENC and the program as they are. -/
theorem exec_unpack_frame {hi lo : Byte} {s t : State} (h : exec (.unpack hi lo) s = .next t) :
    t.block = s.block ∧ t.enc = s.enc ∧ t.program = s.program := by
  obtain ⟨_, _, -, rfl⟩ | ⟨_, hpack, -⟩ := exec_cases h
  · simp
  · cases hpack

theorem exec_program {i : Instr} {s t : State} (h : exec i s = .next t) : t.program = s.program := by
  cases i with
  | unpack hi lo =>
    obtain ⟨-, -, hprogram⟩ := exec_unpack_frame h
    exact hprogram
  | pack v =>
    obtain ⟨-, -, hprogram⟩ := exec_pack_frame h
    exact hprogram

/-- An operation of DEC leaves unit ENC as it is. -/
theorem exec_enc_of_onDec {i : Instr} {s t : State} (hi : i.onDec = true) (h : exec i s = .next t) :
    t.enc = s.enc := by
  cases i with
  | unpack hi lo =>
    obtain ⟨-, henc, -⟩ := exec_unpack_frame h
    exact henc
  | pack v => cases hi

/-- An operation of ENC leaves unit DEC as it is. -/
theorem exec_dec_of_not_onDec {i : Instr} {s t : State} (hi : i.onDec = false) (h : exec i s = .next t) :
    t.dec = s.dec := by
  cases i with
  | unpack hi lo => cases hi
  | pack v =>
    obtain ⟨-, hdec, -⟩ := exec_pack_frame h
    exact hdec

/-- How an operation leaves unit DEC depends on nothing but unit DEC. -/
theorem exec_dec_congr {i : Instr} {s s' t t' : State} (h : exec i s = .next t) (h' : exec i s' = .next t')
    (hdec : s.dec = s'.dec) : t.dec = t'.dec := by
  cases i with
  | unpack hi lo => rw [exec_unpack_dec h, exec_unpack_dec h', hdec]
  | pack v => rw [exec_dec_of_not_onDec rfl h, exec_dec_of_not_onDec rfl h', hdec]

/-- How an operation leaves unit ENC depends on nothing but unit ENC. -/
theorem exec_enc_congr {i : Instr} {s s' t t' : State} (h : exec i s = .next t) (h' : exec i s' = .next t')
    (henc : s.enc = s'.enc) : t.enc = t'.enc := by
  cases i with
  | unpack hi lo => rw [exec_enc_of_onDec rfl h, exec_enc_of_onDec rfl h', henc]
  | pack v => rw [exec_pack_enc h, exec_pack_enc h', henc]

/-- The outputs of DEC are functions of unit DEC. -/
theorem decOutputs_congr {s t : State} (h : s.dec = t.dec) : s.decQ = t.decQ ∧ s.decHalf = t.decHalf :=
  ⟨congrArg DecUnit.qOut h, congrArg DecUnit.halfOut h⟩

/-- The outputs of ENC are functions of unit ENC. -/
theorem encOutputs_congr {s t : State} (h : s.enc = t.enc) : s.encHi = t.encHi ∧ s.encLo = t.encLo :=
  ⟨congrArg EncUnit.hiOut h, congrArg EncUnit.loOut h⟩

/-- Settles O22: unit DEC after UNPACK is known field by field, and the rest of the machine is UNPACK's frame. -/
theorem unpackTouchesOnlyUnitDec : Obligations.UnpackTouchesOnlyUnitDec := by
  intro hi lo s
  obtain ⟨t, ht, hq, hh⟩ := exec_unpack_ports hi lo s
  have hdec := exec_unpack_dec ht
  obtain ⟨hblock, henc, hprogram⟩ := exec_unpack_frame ht
  obtain ⟨hencHi, hencLo⟩ := encOutputs_congr henc
  exact ⟨t, _, _, ht, by rw [hdec], by rw [hdec], exec_unpack_log ht, hq, hh, hblock, henc, hencHi, hencLo, hprogram⟩

/-- Settles O23: unit ENC after PACK is known field by field, and the rest of the machine is PACK's frame. -/
theorem packTouchesOnlyUnitEnc : Obligations.PackTouchesOnlyUnitEnc := by
  intro v s
  obtain ⟨t, ht, hhi, hlo⟩ := exec_pack_ports v s
  have henc := exec_pack_enc ht
  obtain ⟨hblock, hdec, hprogram⟩ := exec_pack_frame ht
  obtain ⟨hdecQ, hdecHalf⟩ := decOutputs_congr hdec
  exact ⟨t, _, _, ht, by rw [henc], exec_pack_log ht, hhi, hlo, hblock, hdec, hdecQ, hdecHalf, hprogram⟩

end Sys2Proof.Machine
end

/-! PROOFS. What one step does to the host's record: it is kept, and a lawful result of a unit may be added
(spec/70_reset_and_hazards.md R89, spec/40_unpack.md R52, spec/42_codec_laws.md R61, R63). -/
section
namespace Sys2Proof.Machine

/-- The result that UNPACK records obeys the codec's arithmetic. -/
theorem lawful_unpack_record (hi lo : Byte) :
    DecRecord.Lawful ⟨hi, lo, pairBits hi lo, (pairBits hi lo).signExtend 16⟩ :=
  ⟨pairBits_toInt hi lo, toInt_signExtend _⟩

theorem toInt_setWidth_emod (v : Half) : (v.setWidth 9).toInt % 512 = v.toInt % 512 := by
  obtain ⟨k, hk⟩ := toInt_setWidth_eq_add v
  rw [hk, Int.add_mul_emod_self_left]

theorem toInt_setWidth_eq_iff (v : Half) : (v.setWidth 9).toInt = v.toInt ↔ InRange9 v.toInt :=
  ⟨fun h => h ▸ inRange9_toInt (v.setWidth 9), toInt_setWidth_of_inRange9⟩

/-- The result that PACK records obeys the codec's arithmetic. -/
theorem lawful_pack_record (v : Half) : EncRecord.Lawful ⟨v, v.extractLsb' 1 8, fracByte v⟩ := by
  rw [EncRecord.Lawful, pairCount_extract_fracByte]
  exact ⟨canonicalLo_fracByte v, toInt_setWidth_emod v, toInt_setWidth_eq_iff v⟩

/-- `new` is `old` with at most one result added at its end, and that one satisfies `P`. -/
def LogGrows {α : Type} (P : α → Prop) (old new : List α) : Prop := new = old ∨ ∃ r, P r ∧ new = old ++ [r]

theorem LogGrows.exists_append {α : Type} {P : α → Prop} {old new : List α} (h : LogGrows P old new) :
    ∃ l, new = old ++ l ∧ l.length ≤ 1 := by
  obtain rfl | ⟨r, -, rfl⟩ := h
  · exact ⟨[], (List.append_nil _).symm, Nat.zero_le 1⟩
  · exact ⟨[r], rfl, Nat.le_refl 1⟩

theorem LogGrows.forall_mem {α : Type} {P : α → Prop} {old new : List α} (h : LogGrows P old new)
    (hold : ∀ r ∈ old, P r) : ∀ r ∈ new, P r := by
  obtain rfl | ⟨r, hr, rfl⟩ := h
  · exact hold
  · exact List.forall_mem_append.2 ⟨hold, List.forall_mem_singleton.2 hr⟩

/-- Both records are kept, each with at most one result added, which is lawful. -/
def RecordsGrow (s t : State) : Prop :=
  LogGrows DecRecord.Lawful s.dec.log t.dec.log ∧ LogGrows EncRecord.Lawful s.enc.log t.enc.log

theorem exec_unpack_decLog_grows {hi lo : Byte} {s t : State} (h : exec (.unpack hi lo) s = .next t) :
    LogGrows DecRecord.Lawful s.dec.log t.dec.log :=
  .inr ⟨_, lawful_unpack_record hi lo, exec_unpack_log h⟩

theorem exec_pack_encLog_grows {v : Half} {s t : State} (h : exec (.pack v) s = .next t) :
    LogGrows EncRecord.Lawful s.enc.log t.enc.log :=
  .inr ⟨_, lawful_pack_record v, exec_pack_log h⟩

theorem exec_recordsGrow {i : Instr} {s t : State} (h : exec i s = .next t) : RecordsGrow s t := by
  cases i with
  | unpack hi lo => exact ⟨exec_unpack_decLog_grows h, .inl (by rw [exec_enc_of_onDec rfl h])⟩
  | pack v => exact ⟨.inl (by rw [exec_dec_of_not_onDec rfl h]), exec_pack_encLog_grows h⟩

/-- A line that is applied takes nothing off the lines after it, and it adds to each record at most once. -/
theorem applyLine_program_and_records {l : Line} {s t : State} (h : applyLine l s = .next t) :
    t.program = s.program ∧ RecordsGrow s t := by
  obtain ⟨i, hi⟩ | ⟨hi, lo, v, u, hu, ht⟩ | ⟨a, rfl⟩ | ⟨a, rfl⟩ | ⟨v, rfl⟩ := applyLine_cases h
  · exact ⟨exec_program hi, exec_recordsGrow hi⟩
  · have hdec := exec_unpack_decLog_grows hu
    have henc := exec_pack_encLog_grows ht
    rw [← exec_dec_of_not_onDec rfl ht] at hdec
    rw [exec_enc_of_onDec rfl hu] at henc
    exact ⟨(exec_program ht).trans (exec_program hu), hdec, henc⟩
  · exact ⟨rfl, .inl rfl, .inl rfl⟩
  · exact ⟨rfl, .inl rfl, .inl rfl⟩
  · exact ⟨rfl, .inl rfl, .inl rfl⟩

/-- Everything a step does to the host's side: one line is taken off, and the records grow. -/
theorem step_program_and_records {s t : State} (h : step s = .next t) :
    t.program = s.program.tail ∧ RecordsGrow s t := by
  cases hp : s.program with
  | nil =>
    obtain rfl : s = t := Host.Outcome.next.inj ((step_nil hp).symm.trans h)
    exact ⟨hp, .inl rfl, .inl rfl⟩
  | cons l rest =>
    rw [step_cons hp] at h
    exact applyLine_program_and_records h

/-- Settles O35: a step adds lawful results only. -/
theorem everyStepKeepsTheRecordedResultsLawful : Obligations.EveryStepKeepsTheRecordedResultsLawful := by
  rintro s t ⟨hdec, henc⟩ h
  obtain ⟨-, hdecGrows, hencGrows⟩ := step_program_and_records h
  exact ⟨hdecGrows.forall_mem hdec, hencGrows.forall_mem henc⟩

/-- Settles O36: the invariant holds right after reset because both records are empty. -/
theorem recordedResultsAreLawfulAtReset : Obligations.RecordedResultsAreLawfulAtReset :=
  ⟨List.forall_mem_nil _, List.forall_mem_nil _⟩

/-- Settles O34: a step takes off one line and adds at most one result on each unit. -/
theorem stepsKeepRecordedResults : Obligations.StepsKeepRecordedResults := by
  intro s t h
  obtain ⟨hprogram, hdecGrows, hencGrows⟩ := step_program_and_records h
  exact ⟨hprogram, hdecGrows.exists_append, hencGrows.exists_append⟩

end Sys2Proof.Machine
end

/-! PROOFS. Lists of operations: what they leave as it was, interleaving (spec/20_memory.md R30) and repetition
(spec/20_memory.md R24). -/
section
namespace Sys2Proof.Machine

theorem execAll_completes (is : List Instr) (s : State) : ∃ t, execAll is s = .next t := by
  obtain ⟨t, ht, -⟩ := execAll_append is s
  exact ⟨t, ht⟩

/-- What each operation of a list leaves as it was, the list leaves as it was. -/
theorem execAll_keeps {α : Type} (f : State → α) {is : List Instr}
    (hkeep : ∀ i ∈ is, ∀ s t, exec i s = .next t → f t = f s) {s t : State} (h : execAll is s = .next t) :
    f t = f s := by
  induction is generalizing s with
  | nil => cases h; rfl
  | cons i is ih =>
    obtain ⟨hi, his⟩ := List.forall_mem_cons.1 hkeep
    obtain ⟨r, hr⟩ := exec_completes i s
    rw [execAll_cons hr] at h
    exact (ih his h).trans (hi s r hr)

/-- A part `f` of the machine that only the operations in `p` change, and that they change as a function of `f` alone, is left
by a list as by its operations in `p`. -/
theorem execAll_filter {α : Type} (f : State → α) (p : Instr → Bool)
    (hcongr : ∀ {i s s' t t'}, exec i s = .next t → exec i s' = .next t' → f s = f s' → f t = f t')
    (hkeep : ∀ {i s t}, p i = false → exec i s = .next t → f t = f s)
    {is : List Instr} {s s' t t' : State} (hs : f s = f s') (h : execAll is s = .next t)
    (h' : execAll (is.filter p) s' = .next t') : f t = f t' := by
  induction is generalizing s s' with
  | nil => cases h; cases h'; exact hs
  | cons i is ih =>
    obtain ⟨r, hr⟩ := exec_completes i s
    rw [execAll_cons hr] at h
    cases hp : p i with
    | true =>
      obtain ⟨r', hr'⟩ := exec_completes i s'
      rw [List.filter_cons_of_pos hp, execAll_cons hr'] at h'
      exact ih (hcongr hr hr' hs) h h'
    | false =>
      rw [List.filter_cons_of_neg (by simp [hp])] at h'
      exact ih ((hkeep hp hr).trans hs) h h'

/-- The block is empty, so the units and the program make the state. -/
theorem state_eq {s t : State} (hdec : s.dec = t.dec) (henc : s.enc = t.enc) (hprogram : s.program = t.program) :
    s = t := by
  obtain ⟨_, _, _, _⟩ := s
  obtain ⟨_, _, _, _⟩ := t
  cases hdec
  cases henc
  cases hprogram
  rfl

theorem execAll_program {is : List Instr} {s t : State} (h : execAll is s = .next t) : t.program = s.program :=
  execAll_keeps State.program (fun _ _ _ _ => exec_program) h

/-- Unit DEC ends as after the operations of DEC alone. -/
theorem execAll_dec_filter {is : List Instr} {s t d : State} (h : execAll is s = .next t)
    (hd : execAll (is.filter Instr.onDec) s = .next d) : t.dec = d.dec :=
  execAll_filter State.dec Instr.onDec exec_dec_congr exec_dec_of_not_onDec rfl h hd

/-- Unit ENC ends as after the operations of ENC alone. -/
theorem execAll_enc_filter {is : List Instr} {s t e : State} (h : execAll is s = .next t)
    (he : execAll (is.filter fun i => !i.onDec) s = .next e) : t.enc = e.enc :=
  execAll_filter State.enc _ exec_enc_congr (fun hi => exec_enc_of_onDec (by simpa using hi)) rfl h he

/-- Two lists with the same operations on each unit, in order, give equal outcomes. -/
theorem execAll_congr_filter {is js : List Instr} (s : State) (hdec : is.filter Instr.onDec = js.filter Instr.onDec)
    (henc : (is.filter fun i => !i.onDec) = js.filter fun i => !i.onDec) : execAll is s = execAll js s := by
  obtain ⟨t, ht⟩ := execAll_completes is s
  obtain ⟨u, hu⟩ := execAll_completes js s
  obtain ⟨d, hd⟩ := execAll_completes (is.filter Instr.onDec) s
  obtain ⟨e, he⟩ := execAll_completes (is.filter fun i => !i.onDec) s
  have hdecs : t.dec = u.dec := (execAll_dec_filter ht hd).trans (execAll_dec_filter hu (hdec ▸ hd)).symm
  have hencs : t.enc = u.enc := (execAll_enc_filter ht he).trans (execAll_enc_filter hu (henc ▸ he)).symm
  rw [ht, hu, state_eq hdecs hencs ((execAll_program ht).trans (execAll_program hu).symm)]

/-- Settles O18: each unit is changed by its own operations only, and they read nothing of the other unit. -/
theorem interleavingOfTheTwoUnitsDoesNotMatter : Obligations.InterleavingOfTheTwoUnitsDoesNotMatter := by
  refine ⟨fun is s => ?_, fun is js s => execAll_congr_filter s⟩
  obtain ⟨t, ht⟩ := execAll_completes is s
  obtain ⟨d, hd⟩ := execAll_completes (is.filter Instr.onDec) s
  obtain ⟨e, he⟩ := execAll_completes (is.filter fun i => !i.onDec) s
  have hdenc : d.enc = s.enc :=
    execAll_keeps State.enc (fun _ hi _ _ => exec_enc_of_onDec (List.mem_filter.1 hi).2) hd
  have hedec : e.dec = s.dec :=
    execAll_keeps State.dec (fun _ hi _ _ => exec_dec_of_not_onDec (by simpa using (List.mem_filter.1 hi).2)) he
  exact ⟨t, d, e, ht, hd, he, execAll_dec_filter ht hd, execAll_enc_filter ht he, hdenc, hedec, execAll_program ht⟩

/-- A log to which an operation always adds the result `r` grows by as many copies of it as there are repetitions. -/
theorem execAll_replicate_log {α : Type} (log : State → List α) {i : Instr} {r : α}
    (hlog : ∀ {s t}, exec i s = .next t → log t = log s ++ [r]) {n : Nat} {s u : State}
    (h : execAll (List.replicate n i) s = .next u) : log u = log s ++ List.replicate n r := by
  induction n generalizing s with
  | zero => cases h; exact (List.append_nil _).symm
  | succ n ih =>
    obtain ⟨t, ht⟩ := exec_completes i s
    rw [List.replicate_succ, execAll_cons ht] at h
    rw [ih h, hlog ht, List.append_assoc, List.singleton_append, List.replicate_succ]

/-- The last of several repetitions is an operation like the first, from another state. -/
theorem execAll_replicate_last {i : Instr} {n : Nat} {s u : State}
    (h : execAll (List.replicate (n + 1) i) s = .next u) : ∃ r, exec i r = .next u := by
  obtain ⟨r, -, happend⟩ := execAll_append (List.replicate n i) s
  rw [List.replicate_succ', happend, execAll_singleton] at h
  exact ⟨r, h⟩

/-- What an operation leaves as it was, its repetitions leave as it was. -/
theorem execAll_replicate_keeps {α : Type} (f : State → α) {i : Instr}
    (hkeep : ∀ {s t}, exec i s = .next t → f t = f s) {n : Nat} {s u : State}
    (h : execAll (List.replicate n i) s = .next u) : f u = f s :=
  execAll_keeps f (fun _ hj _ _ => List.eq_of_mem_replicate hj ▸ hkeep) h

/-- After UNPACK the outputs of DEC are the same, whatever the state before it. -/
theorem exec_unpack_outputs_unique {hi lo : Byte} {s r t u : State} (ht : exec (.unpack hi lo) s = .next t)
    (hu : exec (.unpack hi lo) r = .next u) : u.decQ = t.decQ ∧ u.decHalf = t.decHalf := by
  obtain ⟨t', ht', hq, hh⟩ := exec_unpack_ports hi lo s
  obtain ⟨u', hu', hq', hh'⟩ := exec_unpack_ports hi lo r
  obtain rfl := Host.Outcome.next.inj (ht.symm.trans ht')
  obtain rfl := Host.Outcome.next.inj (hu.symm.trans hu')
  exact ⟨hq'.trans hq.symm, hh'.trans hh.symm⟩

/-- After PACK the outputs of ENC are the same, whatever the state before it. -/
theorem exec_pack_outputs_unique {v : Half} {s r t u : State} (ht : exec (.pack v) s = .next t)
    (hu : exec (.pack v) r = .next u) : u.encHi = t.encHi ∧ u.encLo = t.encLo := by
  obtain ⟨t', ht', hhi, hlo⟩ := exec_pack_ports v s
  obtain ⟨u', hu', hhi', hlo'⟩ := exec_pack_ports v r
  obtain rfl := Host.Outcome.next.inj (ht.symm.trans ht')
  obtain rfl := Host.Outcome.next.inj (hu.symm.trans hu')
  exact ⟨hhi'.trans hhi.symm, hlo'.trans hlo.symm⟩

/-- Settles O24: the last repetition determines its unit's outputs, and no repetition touches the other unit. -/
theorem repeatingAnOperationGivesTheSameResult : Obligations.RepeatingAnOperationGivesTheSameResult := by
  intro i n s
  obtain ⟨t, ht⟩ := exec_completes i s
  obtain ⟨u, hu⟩ := execAll_completes (List.replicate (n + 1) i) s
  obtain ⟨r, hr⟩ := execAll_replicate_last hu
  cases i with
  | unpack hi lo =>
    obtain ⟨hq, hh⟩ := exec_unpack_outputs_unique ht hr
    have henc : u.enc = t.enc :=
      (execAll_replicate_keeps State.enc (exec_enc_of_onDec rfl) hu).trans (exec_enc_of_onDec rfl ht).symm
    obtain ⟨hencHi, hencLo⟩ := encOutputs_congr henc
    exact ⟨t, u, ht, hu, hq, hh, hencHi, hencLo,
      fun _ => ⟨_, execAll_replicate_log (fun s => s.dec.log) exec_unpack_log hu, exec_unpack_log ht⟩, nofun⟩
  | pack v =>
    obtain ⟨hhi, hlo⟩ := exec_pack_outputs_unique ht hr
    have hdec : u.dec = t.dec :=
      (execAll_replicate_keeps State.dec (exec_dec_of_not_onDec rfl) hu).trans (exec_dec_of_not_onDec rfl ht).symm
    obtain ⟨hdecQ, hdecHalf⟩ := decOutputs_congr hdec
    exact ⟨t, u, ht, hu, hdecQ, hdecHalf, hhi, hlo, nofun,
      fun _ => ⟨_, execAll_replicate_log (fun s => s.enc.log) exec_pack_log hu, exec_pack_log ht⟩⟩

end Sys2Proof.Machine
end

/-! PROOFS. The outputs on partly driven ports (spec/10_state.md R12), and the lines that drive one port (spec/20_memory.md
R24). -/
section
namespace Sys2Proof.Machine

theorem decQ_zero (s : State) : s.decQ[0] = s.dec.lo[7] := getElem_decQ s 0 (by decide)

theorem decQ_succ (s : State) (i : Nat) (h : i < 8) : s.decQ[i + 1] = s.dec.hi[i] := getElem_decQ s (i + 1) (by omega)

theorem decHalf_low (s : State) (i : Nat) (h : i < 9) : s.decHalf[i] = s.decQ[i] := by
  rw [getElem_decHalf, dif_pos h]

theorem decHalf_high (s : State) (i : Nat) (h : i < 16) (h9 : 9 ≤ i) : s.decHalf[i] = s.dec.hi[7] := by
  rw [getElem_decHalf, dif_neg (Nat.not_lt.2 h9)]

theorem encLo_seven (s : State) : s.encLo[7] = s.enc.v[0] := getElem_encLo s 7 (by decide)

/-- `dec_q` is fully defined exactly when the nine input bits of its table are. -/
theorem decQ_defined_iff (s : State) : s.decQ.toList.all Option.isSome = true ↔
    s.dec.hi.toList.all Option.isSome = true ∧ s.dec.lo[7].isSome = true := by
  rw [defined_iff, defined_iff]
  constructor
  · intro h
    refine ⟨fun i hi => ?_, ?_⟩
    · rw [← decQ_succ s i hi]
      exact h (i + 1) (by omega)
    · rw [← decQ_zero]
      exact h 0 (by decide)
  · rintro ⟨hhi, hlo⟩ i hi
    cases i with
    | zero => rwa [decQ_zero]
    | succ i => rw [decQ_succ s i (by omega)]; exact hhi i (by omega)

/-- `dec_half` has the bits of `dec_q` and more copies of the topmost. -/
theorem decHalf_defined_iff (s : State) :
    s.decHalf.toList.all Option.isSome = true ↔ s.decQ.toList.all Option.isSome = true := by
  rw [defined_iff, defined_iff]
  constructor
  · intro h i hi
    rw [← decHalf_low s i hi]
    exact h i (by omega)
  · intro h i hi
    by_cases h9 : i < 9
    · rw [decHalf_low s i h9]
      exact h i h9
    · rw [decHalf_high s i hi (Nat.le_of_not_lt h9), ← decQ_succ s 7 (by decide)]
      exact h 8 (by decide)

/-- Settles O38, one lemma per row of the dependency table. -/
theorem outputBitsFollowTheirInputBitsOnPartlyDrivenPorts :
    Obligations.OutputBitsFollowTheirInputBitsOnPartlyDrivenPorts := by
  intro s
  exact ⟨decQ_succ s, decQ_zero s, decHalf_low s, decHalf_high s, getElem_encHi s, encLo_seven s, encLo_low_eq_zero s,
    decQ_defined_iff s, decHalf_defined_iff s⟩

/-- The outputs of DEC depend on `dec_hi` and `dec_lo[7]` only. -/
theorem decOutputs_congr_bits {s s' : State} (hhi : s.dec.hi = s'.dec.hi) (hlo : s.dec.lo[7] = s'.dec.lo[7]) :
    s.decQ = s'.decQ ∧ s.decHalf = s'.decHalf := by
  have hq : s.decQ = s'.decQ := by
    ext i h : 1
    simp only [getElem_decQ, hhi, hlo]
  refine ⟨hq, ?_⟩
  ext i h : 1
  simp only [getElem_decHalf, hq, hhi]

/-- The outputs of ENC depend on `enc_v[8:0]` only. -/
theorem encOutputs_congr_bits {s s' : State} (hv : ∀ (i : Nat) (h : i < 9), s.enc.v[i] = s'.enc.v[i]) :
    s.encHi = s'.encHi ∧ s.encLo = s'.encLo := by
  constructor
  · ext i h : 1
    rw [getElem_encHi, getElem_encHi, hv (i + 1) (by omega)]
  · ext i h : 1
    rw [getElem_encLo, getElem_encLo, hv 0 (by decide)]

/-- Settles O20: the bits that the outputs are copies of are the ones on which the two states agree. -/
theorem ignoredInputBitsReachNoOutput : Obligations.IgnoredInputBitsReachNoOutput :=
  fun _ _ => ⟨decOutputs_congr_bits, encOutputs_congr_bits⟩

section
variable {s : State} {rest : List Line}

theorem step_driveDecHi {l : Levels 8} (h : s.program = .driveDecHi l :: rest) :
    step s = .next ({ s with program := rest }.driveDecHi l) := step_cons h

theorem step_driveDecLo {l : Levels 8} (h : s.program = .driveDecLo l :: rest) :
    step s = .next ({ s with program := rest }.driveDecLo l) := step_cons h

theorem step_driveEncV {l : Levels 16} (h : s.program = .driveEncV l :: rest) :
    step s = .next ({ s with program := rest }.driveEncV l) := step_cons h

end

/-- Settles O37: the step is the driving of the one port, and the other unit's outputs are functions of that unit. -/
theorem drivingAPortChangesNothingElse : Obligations.DrivingAPortChangesNothingElse := by
  intro s rest
  refine ⟨fun l h => ?_, fun l h => ?_, fun l h => ?_⟩
  · obtain ⟨hhi, hlo⟩ := encOutputs_congr (driveDecHi_enc { s with program := rest } l)
    exact ⟨_, step_driveDecHi h, rfl, rfl, rfl, rfl, hhi, hlo, rfl, rfl⟩
  · obtain ⟨hhi, hlo⟩ := encOutputs_congr (driveDecLo_enc { s with program := rest } l)
    exact ⟨_, step_driveDecLo h, rfl, rfl, rfl, rfl, hhi, hlo, rfl, rfl⟩
  · obtain ⟨hq, hh⟩ := decOutputs_congr (driveEncV_dec { s with program := rest } l)
    exact ⟨_, step_driveEncV h, rfl, rfl, rfl, hq, hh, rfl, rfl⟩

/-- With a pair in place on the ports of DEC, the outputs are those that UNPACK of it shows. -/
theorem exec_unpack_of_driven {u : State} (hi lo : Byte) (s : State) (hhi : u.dec.hi = Levels.ofBits hi)
    (hlo : u.dec.lo = Levels.ofBits lo) :
    ∃ w, exec (.unpack hi lo) s = .next w ∧ u.decQ = w.decQ ∧ u.decHalf = w.decHalf := by
  obtain ⟨w, hw, hq, hh⟩ := exec_unpack_ports hi lo s
  exact ⟨w, hw, (decQ_eq_ofBits hhi hlo).trans hq.symm, (decHalf_eq_ofBits hhi hlo).trans hh.symm⟩

/-- With an integer in place on the port of ENC, the outputs are those that PACK of it shows. -/
theorem exec_pack_of_driven {u : State} (v : Half) (s : State) (hv : u.enc.v = Levels.ofBits v) :
    ∃ w, exec (.pack v) s = .next w ∧ u.encHi = w.encHi ∧ u.encLo = w.encLo := by
  obtain ⟨w, hw, hhi, hlo⟩ := exec_pack_ports v s
  exact ⟨w, hw, (encHi_eq_ofBits hv).trans hhi.symm, (encLo_eq_ofBits hv).trans hlo.symm⟩

/-- Settles O33 from O37 for each step: after both the pair is in place, and after the first each bit of `dec_q` is still the
level on its own input bit. -/
theorem drivingThePortsOneByOneGivesTheSameOutputs : Obligations.DrivingThePortsOneByOneGivesTheSameOutputs := by
  intro s rest
  refine ⟨fun hi lo h => ?_, fun hi lo h => ?_, fun v h => ?_⟩
  · obtain ⟨hdriveHi, -, -⟩ := drivingAPortChangesNothingElse s (.driveDecLo (Levels.ofBits lo) :: rest)
    obtain ⟨t, ht, hthi, htlo, -, -, -, -, -, htprogram⟩ := hdriveHi _ h
    obtain ⟨-, hdriveLo, -⟩ := drivingAPortChangesNothingElse t rest
    obtain ⟨u, hu, hulo, huhi, -⟩ := hdriveLo _ htprogram
    obtain ⟨w, hw, hq, hh⟩ := exec_unpack_of_driven hi lo s (huhi.trans hthi) hulo
    refine ⟨t, u, w, ht, hu, hw, ?_, fun i hi8 => ?_, hq, hh⟩
    · rw [decQ_zero, htlo]
    · simp only [decQ_succ t i hi8, hthi, getElem_ofBits]
  · obtain ⟨-, hdriveLo, -⟩ := drivingAPortChangesNothingElse s (.driveDecHi (Levels.ofBits hi) :: rest)
    obtain ⟨t, ht, htlo, hthi, -, -, -, -, -, htprogram⟩ := hdriveLo _ h
    obtain ⟨hdriveHi, -, -⟩ := drivingAPortChangesNothingElse t rest
    obtain ⟨u, hu, huhi, hulo, -⟩ := hdriveHi _ htprogram
    obtain ⟨w, hw, hq, hh⟩ := exec_unpack_of_driven hi lo s huhi (hulo.trans htlo)
    refine ⟨t, u, w, ht, hu, hw, ?_, fun i hi8 => ?_, hq, hh⟩
    · simp only [decQ_zero, htlo, getElem_ofBits]
    · rw [decQ_succ t i hi8, hthi]
  · obtain ⟨-, -, hdriveV⟩ := drivingAPortChangesNothingElse s rest
    obtain ⟨t, ht, htv, -⟩ := hdriveV _ h
    obtain ⟨w, hw, hhi, hlo⟩ := exec_pack_of_driven v s htv
    exact ⟨t, w, ht, hw, hhi, hlo⟩

end Sys2Proof.Machine
end

/-! PROOFS. A step on each kind of line: operation words (spec/30_encoding.md R41), defined operands, two lines at once, and
the pseudo-operations (spec/30_encoding.md R44). -/
section
namespace Sys2Proof.Machine

/-- Settles O27: the first five are words of an UNPACK or a PACK, and the last number has 18 bits. -/
theorem wordsOfTheSpecDecodeAsWritten : Obligations.WordsOfTheSpecDecodeAsWritten :=
  ⟨decodeWord_unpack 0x19#8 0x00#8, decodeWord_unpack 0xE7#8 0x7F#8, decodeWord_pack 0x0032#16,
    decodeWord_pack 0xFFCE#16, rfl, rfl⟩

/-! The two ways in which a line performs operations. -/

theorem exists_applyInstr_iff {x : Except Refusal Instr} {s : State} :
    (∃ t, applyInstr x s = .next t) ↔ ∃ i, x = .ok i := by
  cases x with
  | ok i => exact ⟨fun _ => ⟨i, rfl⟩, fun _ => exec_completes i s⟩
  | error r => exact ⟨fun ⟨_, h⟩ => (nomatch h), fun ⟨_, h⟩ => nomatch h⟩

theorem applyBoth_ok (i j : Instr) (s : State) : applyBoth (.ok i) (.ok j) s = execAll [i, j] s := by
  obtain ⟨t, ht⟩ := exec_completes i s
  rw [execAll_cons ht, execAll_singleton]
  simp only [applyBoth, ht]

theorem exists_applyBoth_iff {x y : Except Refusal Instr} {s : State} :
    (∃ t, applyBoth x y s = .next t) ↔ (∃ i, x = .ok i) ∧ ∃ j, y = .ok j := by
  cases x with
  | error r => exact ⟨fun ⟨_, h⟩ => (nomatch h), fun ⟨⟨_, h⟩, _⟩ => nomatch h⟩
  | ok i =>
    cases y with
    | error r => exact ⟨fun ⟨_, h⟩ => (nomatch h), fun ⟨_, _, h⟩ => nomatch h⟩
    | ok j => exact ⟨fun _ => ⟨⟨i, rfl⟩, j, rfl⟩, fun _ => applyBoth_ok i j s ▸ execAll_completes [i, j] s⟩

theorem wordInstr_ok {n : Nat} {i : Instr} (h : decodeWord n = .ok i) : wordInstr n = .ok i := by
  rw [wordInstr, h]

theorem wordInstr_of_ge {n : Nat} (h : 2 ^ 17 ≤ n) : wordInstr n = .error (.notAnOperationWord n) := by
  rw [wordInstr, decodeWord, if_neg (Nat.not_lt.2 h)]

section
variable {s : State} {rest : List Line}

theorem step_word {n : Nat} {i : Instr} (h : s.program = .word n :: rest) (hi : decodeWord n = .ok i) :
    step s = exec i { s with program := rest } := by
  rw [step_cons h, applyLine, wordInstr_ok hi, applyInstr]

theorem step_dec {d : DecOp} (h : s.program = .dec d :: rest) :
    step s = applyInstr (d.instr s) { s with program := rest } := by
  rw [step_cons h, applyLine, DecOp.instr_program]

theorem step_enc {e : EncOp} (h : s.program = .enc e :: rest) :
    step s = applyInstr (e.instr s) { s with program := rest } := by
  rw [step_cons h, applyLine, EncOp.instr_program]

theorem step_atOnce {d : DecOp} {e : EncOp} (h : s.program = .atOnce d e :: rest) :
    step s = applyBoth (d.instr s) (e.instr s) { s with program := rest } := by
  rw [step_cons h, applyLine, DecOp.instr_program, EncOp.instr_program]

theorem step_dec_ok {d : DecOp} {i : Instr} (h : s.program = .dec d :: rest) (hd : d.instr s = .ok i) :
    step s = exec i { s with program := rest } := by
  rw [step_dec h, hd, applyInstr]

theorem step_enc_ok {e : EncOp} {i : Instr} (h : s.program = .enc e :: rest) (he : e.instr s = .ok i) :
    step s = exec i { s with program := rest } := by
  rw [step_enc h, he, applyInstr]

theorem step_atOnce_ok {d : DecOp} {e : EncOp} {i j : Instr} (h : s.program = .atOnce d e :: rest)
    (hd : d.instr s = .ok i) (he : e.instr s = .ok j) : step s = execAll [i, j] { s with program := rest } := by
  rw [step_atOnce h, hd, he, applyBoth_ok]

end

/-- Settles O28: an operation word always decodes, and the program is as before once the placed word is taken off. -/
theorem stepRunsTheDecodedOperation : Obligations.StepRunsTheDecodedOperation := by
  refine ⟨fun s n rest i h hi => step_word h hi, fun s w hw => ?_⟩
  have hplaced : w % 2 ^ 24 = w := Nat.mod_eq_of_lt (Nat.lt_trans hw (by decide))
  exact step_word rfl (by rw [hplaced, decodeWord_ofNat hw])

theorem DecOp.onDec_of_instr {d : DecOp} {s : State} {i : Instr} (h : d.instr s = .ok i) : i.onDec = true := by
  obtain ⟨hi, lo, hd⟩ | hd := d.instr_cases s
  · obtain rfl := Except.ok.inj (hd.symm.trans h)
    rfl
  · cases hd.symm.trans h

theorem EncOp.onDec_of_instr {e : EncOp} {s : State} {i : Instr} (h : e.instr s = .ok i) : i.onDec = false := by
  obtain ⟨v, he⟩ | he | he := e.instr_cases s
  · obtain rfl := Except.ok.inj (he.symm.trans h)
    rfl
  · cases he.symm.trans h
  · cases he.symm.trans h

/-- Settles O19: the two orders are interleavings of the same operation on each unit. -/
theorem linesAtTheSameMomentMayBeTakenInEitherOrder :
    Obligations.LinesAtTheSameMomentMayBeTakenInEitherOrder := by
  intro s d e rest i j h hd he
  have hi := DecOp.onDec_of_instr hd
  have hj := EncOp.onDec_of_instr he
  obtain ⟨t, ht⟩ := execAll_completes [i, j] { s with program := rest }
  have hswap : execAll [j, i] { s with program := rest } = execAll [i, j] { s with program := rest } :=
    execAll_congr_filter _ (by simp [hi, hj]) (by simp [hi, hj])
  exact ⟨t, (step_atOnce_ok h hd he).trans ht, ht, hswap.trans ht, execAll_program ht⟩

/-- An UNPACK line whose operands carry bytes stands for UNPACK of these. -/
theorem unpack_instr_of_carries {s : State} {a b : ByteOperand} {hi lo : Byte} (ha : a.Carries s hi)
    (hb : b.Carries s lo) : (DecOp.unpack a b).instr s = .ok (.unpack hi lo) := by
  rw [DecOp.instr, (a.levels_eq_ofBits s hi).2 ha, (b.levels_eq_ofBits s lo).2 hb, unpackOf_ofBits]

/-- A PACK or PACKW line stands for PACK of its operand's levels. -/
theorem pack_or_packw_instr {e : EncOp} {c : IntOperand} (s : State) (he : e = .pack c ∨ e = .packw c) :
    e.instr s = packOf (c.levels s) := by
  obtain rfl | rfl := he
  · rfl
  · rfl

theorem pack_instr_of_carries {s : State} {e : EncOp} {c : IntOperand} {v : Half} (hc : c.Carries s v)
    (he : e = .pack c ∨ e = .packw c) : e.instr s = .ok (.pack v) := by
  rw [pack_or_packw_instr s he, (c.levels_eq_ofBits s v).2 hc, packOf_ofBits]

/-- Settles O29: a line whose operands carry values stands for the operation on these values. -/
theorem linesRouteRecordedResultsToLaterOperands : Obligations.LinesRouteRecordedResultsToLaterOperands := by
  intro s rest a b c hi lo v e
  refine ⟨fun ha hb h => ?_, fun hc he h => ?_, fun ha hb hc he h => ?_⟩
  · exact step_dec_ok h (unpack_instr_of_carries ha hb)
  · exact step_enc_ok h (pack_instr_of_carries hc he)
  · exact step_atOnce_ok h (unpack_instr_of_carries ha hb) (pack_instr_of_carries hc he)

/-- A literal denotes the temperature of a count exactly when twice its mantissa is the count, scaled. -/
theorem value_eq_tempOf_iff (t : Decimal) (n : Int) :
    t.value = tempOf n ↔ 2 * t.mantissa = n * (10 ^ t.places : Int) := by
  rw [Decimal.value, tempOf, div_eq_div_iff (by positivity) two_ne_zero, mul_comm (t.mantissa : ℚ)]
  norm_cast

/-- The literal of `PACKT` gives `n` exactly when it denotes the representable temperature of `n`. -/
theorem halfDegrees?_eq_some_iff (t : Decimal) (n : Int) :
    t.halfDegrees? = some n ↔ t.value = tempOf n ∧ InRange9 n := by
  have hpow : (0 : Int) < 10 ^ t.places := by positivity
  have hdiv : 2 * t.mantissa = n * (10 ^ t.places : Int) ↔
      2 * t.mantissa % (10 ^ t.places : Int) = 0 ∧ 2 * t.mantissa / (10 ^ t.places : Int) = n := by
    constructor
    · intro h
      rw [h]
      exact ⟨Int.mul_emod_left _ _, Int.mul_ediv_cancel _ hpow.ne'⟩
    · rintro ⟨hmod, rfl⟩
      exact (Int.ediv_mul_cancel (Int.dvd_of_emod_eq_zero hmod)).symm
  rw [value_eq_tempOf_iff, hdiv, Decimal.halfDegrees?]
  split
  · next hmod =>
    simp only [hmod, true_and, Option.ite_none_right_eq_some, Option.some.injEq]
    exact ⟨fun ⟨hrange, hn⟩ => ⟨hn, hn ▸ hrange⟩, fun ⟨hn, hrange⟩ => ⟨hn ▸ hrange, hn⟩⟩
  · next hmod => simp [hmod]

theorem halfDegrees?_eq_none_iff (t : Decimal) :
    t.halfDegrees? = none ↔ ¬ ∃ n : Int, t.value = tempOf n ∧ InRange9 n := by
  simp only [Option.eq_none_iff_forall_ne_some, ne_eq, halfDegrees?_eq_some_iff, not_exists]

theorem packt_instr_some {t : Decimal} {n : Int} (s : State) (h : t.halfDegrees? = some n) :
    (EncOp.packt t).instr s = .ok (.pack (BitVec.ofInt 16 n)) := by
  rw [EncOp.instr, h]

theorem packt_instr_none {t : Decimal} (s : State) (h : t.halfDegrees? = none) :
    (EncOp.packt t).instr s = .error .temperatureNotRepresentable := by
  rw [EncOp.instr, h]

theorem toInt_ofInt_of_inRange9 {n : Int} (hn : InRange9 n) : (BitVec.ofInt 16 n).toInt = n := by
  obtain ⟨hlow, hhigh⟩ := (inRange9_iff n).1 hn
  exact BitVec.toInt_ofInt_eq_self (by decide) (by omega) (by omega)

/-- The 16-bit operand of a negative temperature is `2^16 + 2t` (spec/41_pack.md R58). -/
theorem toNat_ofInt_of_inRange9 {n : Int} (hn : InRange9 n) :
    ((BitVec.ofInt 16 n).toNat : Int) = if n < 0 then 65536 + n else n := by
  obtain ⟨hlow, hhigh⟩ := (inRange9_iff n).1 hn
  rw [BitVec.toNat_ofInt]
  split <;> omega

/-- The word of the result that PACK records is the low nine bits of its operand above seven zeros. -/
theorem exec_pack_record_word (v : Half) (s : State) : ∃ (t : State) (r : EncRecord), exec (.pack v) s = .next t ∧
    t.enc.log = s.enc.log ++ [r] ∧ r.word = (v.extractLsb' 0 9 ++ 0#7 : Half) := by
  obtain ⟨t, ht⟩ := exec_completes (.pack v) s
  exact ⟨t, ⟨v, v.extractLsb' 1 8, fracByte v⟩, ht, exec_pack_log ht, packedWord_extract_fracByte v⟩

/-- Settles O30, by what each pseudo-operation's line stands for. -/
theorem pseudoOperationsAreTheirExpansions : Obligations.PseudoOperationsAreTheirExpansions := by
  intro s rest
  refine ⟨fun w h => step_dec_ok h rfl, fun t n hvalue hn h => ?_, fun t ht h => ?_, fun v h => ?_⟩
  · have hinstr := packt_instr_some s ((halfDegrees?_eq_some_iff t n).2 ⟨hvalue, hn⟩)
    exact ⟨_, step_enc_ok h hinstr, toInt_ofInt_of_inRange9 hn, toNat_ofInt_of_inRange9 hn⟩
  · rw [step_enc h, packt_instr_none s ((halfDegrees?_eq_none_iff t).2 ht), applyInstr]
  · have hinstr : (EncOp.packw (.lit v)).instr s = .ok (.pack v) := packOf_ofBits v
    obtain ⟨t, r, ht, hlog, hword⟩ := exec_pack_record_word v { s with program := rest }
    exact ⟨t, r, (step_enc_ok h hinstr).trans ht, ht, hlog, hword⟩

end Sys2Proof.Machine
end

/-! PROOFS. Which lines are refused: undefined operands (spec/93_implementation_defined.md U1), and well-formedness as the
exact condition for a step to complete. -/
section
namespace Sys2Proof.Machine

theorem exists_unpackOf_iff {h l : Levels 8} :
    (∃ i, unpackOf h l = .ok i) ↔ Levels.value? h ≠ none ∧ Levels.value? l ≠ none := by
  cases hh : Levels.value? h <;> cases hl : Levels.value? l <;> simp [unpackOf, hh, hl]

theorem exists_packOf_iff {v : Levels 16} : (∃ i, packOf v = .ok i) ↔ Levels.value? v ≠ none := by
  cases hv : Levels.value? v <;> simp [packOf, hv]

/-- An UNPACK line stands for an operation exactly when both operands are defined. -/
theorem exists_unpack_instr_iff (s : State) (a b : ByteOperand) :
    (∃ i, (DecOp.unpack a b).instr s = .ok i) ↔ ¬ a.Undefined s ∧ ¬ b.Undefined s := by
  rw [← a.value?_eq_none, ← b.value?_eq_none]
  exact exists_unpackOf_iff

/-- A PACK or PACKW line stands for an operation exactly when its operand is defined. -/
theorem exists_pack_instr_iff (s : State) {e : EncOp} {c : IntOperand} (he : e = .pack c ∨ e = .packw c) :
    (∃ i, e.instr s = .ok i) ↔ ¬ c.Undefined s := by
  rw [← c.value?_eq_none, pack_or_packw_instr s he]
  exact exists_packOf_iff

/-- A line for DEC that stands for no operation has an undefined operand. -/
theorem DecOp.instr_eq_undefinedOperand {s : State} {d : DecOp} (h : ¬ ∃ i, d.instr s = .ok i) :
    d.instr s = .error .undefinedOperand := by
  obtain ⟨_, _, hd⟩ | hd := d.instr_cases s
  · exact absurd ⟨_, hd⟩ h
  · exact hd

theorem pack_instr_of_undefined {s : State} {e : EncOp} {c : IntOperand} (he : e = .pack c ∨ e = .packw c)
    (hc : c.Undefined s) : e.instr s = .error .undefinedOperand := by
  rw [pack_or_packw_instr s he, packOf, (c.value?_eq_none s).2 hc]

/-- Settles O31: a line with an undefined operand stands for no operation, and neither does a line of two at once. -/
theorem undefinedOperandsAreRefused : Obligations.UndefinedOperandsAreRefused := by
  intro s rest a b c d e
  constructor
  · intro hundef hline
    have hd : (DecOp.unpack a b).instr s = .error .undefinedOperand :=
      DecOp.instr_eq_undefinedOperand (by rwa [exists_unpack_instr_iff, ← or_iff_not_and_not])
    obtain h | h := hline
    · rw [step_dec h, hd, applyInstr]
    · rw [step_atOnce h, hd, applyBoth]
  · intro hundef he hline
    have hinstr := pack_instr_of_undefined he hundef
    obtain h | h := hline
    · rw [step_enc h, hinstr, applyInstr]
    · obtain ⟨_, _, hd⟩ | hd := d.instr_cases s
      · rw [step_atOnce h, hd, hinstr, applyBoth]
      · rw [step_atOnce h, hd, applyBoth]

theorem ByteOperand.wellFormed_iff (s : State) (o : ByteOperand) :
    o.wellFormed s.enc.log.length = true ↔ ¬ o.Undefined s := by
  cases o with
  | lit b => simp [ByteOperand.wellFormed, ByteOperand.Undefined]
  | wire l => exact (defined_iff l).trans (by simp [ByteOperand.Undefined, Option.isSome_iff_ne_none])
  | hiOf k => simp [ByteOperand.wellFormed, ByteOperand.Undefined]
  | loOf k => simp [ByteOperand.wellFormed, ByteOperand.Undefined]

theorem IntOperand.wellFormed_iff (s : State) (o : IntOperand) :
    o.wellFormed s.dec.log.length s.enc.log.length = true ↔ ¬ o.Undefined s := by
  cases o with
  | lit v => simp [IntOperand.wellFormed, IntOperand.Undefined]
  | wire l => exact (defined_iff l).trans (by simp [IntOperand.Undefined, Option.isSome_iff_ne_none])
  | halfOf k => simp [IntOperand.wellFormed, IntOperand.Undefined]
  | wordOf k => simp [IntOperand.wellFormed, IntOperand.Undefined]

theorem DecOp.wellFormed_iff (s : State) (d : DecOp) :
    d.wellFormed s.enc.log.length = true ↔ ∃ i, d.instr s = .ok i := by
  cases d with
  | unpack a b =>
    rw [DecOp.wellFormed, Bool.and_eq_true, a.wellFormed_iff, b.wellFormed_iff, exists_unpack_instr_iff]
  | unpackw w => exact ⟨fun _ => ⟨_, rfl⟩, fun _ => rfl⟩

/-- The literals that `PACKT` takes are those that denote a representable temperature. -/
theorem packt_wellFormed_iff (t : Decimal) (nDec nEnc : Nat) :
    (EncOp.packt t).wellFormed nDec nEnc = true ↔ ∃ n, t.halfDegrees? = some n := by
  have hpow : (0 : Int) < 10 ^ t.places := by positivity
  simp only [EncOp.wellFormed, decide_eq_true_iff, halfDegrees?_eq_some_iff, value_eq_tempOf_iff, inRange9_iff]
  constructor
  · rintro ⟨hmod, hlow, hhigh⟩
    obtain ⟨n, hn⟩ := Int.dvd_of_emod_eq_zero hmod
    rw [Int.mul_comm (10 ^ t.places)] at hn
    rw [hn] at hlow hhigh
    exact ⟨n, hn, Int.le_of_mul_le_mul_right hlow hpow, Int.le_of_mul_le_mul_right hhigh hpow⟩
  · rintro ⟨n, hn, hlow, hhigh⟩
    rw [hn]
    exact ⟨Int.mul_emod_left _ _, Int.mul_le_mul_of_nonneg_right hlow hpow.le,
      Int.mul_le_mul_of_nonneg_right hhigh hpow.le⟩

theorem exists_packt_instr_iff (s : State) (t : Decimal) :
    (∃ i, (EncOp.packt t).instr s = .ok i) ↔ ∃ n, t.halfDegrees? = some n := by
  cases h : t.halfDegrees? with
  | none => simp [packt_instr_none s h]
  | some n => simp [packt_instr_some s h]

theorem EncOp.wellFormed_iff (s : State) (e : EncOp) :
    e.wellFormed s.dec.log.length s.enc.log.length = true ↔ ∃ i, e.instr s = .ok i := by
  cases e with
  | pack c => rw [exists_pack_instr_iff s (.inl rfl), EncOp.wellFormed, c.wellFormed_iff]
  | packt t => rw [exists_packt_instr_iff, packt_wellFormed_iff]
  | packw c => rw [exists_pack_instr_iff s (.inr rfl), EncOp.wellFormed, c.wellFormed_iff]

theorem exists_wordInstr_iff (n : Nat) : (∃ i, wordInstr n = .ok i) ↔ n < 2 ^ 17 := by
  by_cases h : n < 2 ^ 17
  · exact iff_of_true ⟨_, wordInstr_ok (decodeWord_ofNat h)⟩ h
  · rw [wordInstr_of_ge (Nat.le_of_not_lt h)]
    exact iff_of_false nofun h

/-- A line completes exactly when it is well-formed. -/
theorem Line.wellFormed_iff (s : State) (l : Line) :
    l.wellFormed s.dec.log.length s.enc.log.length = true ↔ ∃ t, applyLine l s = .next t := by
  cases l with
  | word n => rw [applyLine, exists_applyInstr_iff, exists_wordInstr_iff, Line.wellFormed, decide_eq_true_iff]
  | dec d => rw [applyLine, exists_applyInstr_iff, Line.wellFormed, d.wellFormed_iff]
  | enc e => rw [applyLine, exists_applyInstr_iff, Line.wellFormed, e.wellFormed_iff]
  | atOnce d e =>
    rw [applyLine, exists_applyBoth_iff, Line.wellFormed, Bool.and_eq_true, d.wellFormed_iff, e.wellFormed_iff]
  | driveDecHi a => exact ⟨fun _ => ⟨_, rfl⟩, fun _ => rfl⟩
  | driveDecLo a => exact ⟨fun _ => ⟨_, rfl⟩, fun _ => rfl⟩
  | driveEncV v => exact ⟨fun _ => ⟨_, rfl⟩, fun _ => rfl⟩

/-- The reasons for which a line may be refused. -/
def BoundaryRefusal (r : Refusal) : Prop :=
  r = .undefinedOperand ∨ r = .temperatureNotRepresentable ∨ ∃ n, 2 ^ 17 ≤ n ∧ r = .notAnOperationWord n

/-- A line stands for an operation, or it is refused at the boundary. -/
def OkOrRefused (x : Except Refusal Instr) : Prop := (∃ i, x = .ok i) ∨ ∃ r, BoundaryRefusal r ∧ x = .error r

/-- A line is applied, or it is refused at the boundary; it never faults (spec/60_exceptions.md R70). -/
def NextOrRefused (o : Host.Outcome State Fault Refusal) : Prop :=
  (∃ t, o = .next t) ∨ ∃ r, BoundaryRefusal r ∧ o = .refused r

theorem DecOp.instr_okOrRefused (s : State) (d : DecOp) : OkOrRefused (d.instr s) := by
  obtain ⟨hi, lo, h⟩ | h := d.instr_cases s
  · exact .inl ⟨_, h⟩
  · exact .inr ⟨_, .inl rfl, h⟩

theorem EncOp.instr_okOrRefused (s : State) (e : EncOp) : OkOrRefused (e.instr s) := by
  obtain ⟨v, h⟩ | h | h := e.instr_cases s
  · exact .inl ⟨_, h⟩
  · exact .inr ⟨_, .inl rfl, h⟩
  · exact .inr ⟨_, .inr (.inl rfl), h⟩

theorem wordInstr_okOrRefused (n : Nat) : OkOrRefused (wordInstr n) := by
  by_cases h : n < 2 ^ 17
  · exact .inl ((exists_wordInstr_iff n).2 h)
  · have hge := Nat.le_of_not_lt h
    exact .inr ⟨_, .inr (.inr ⟨n, hge, rfl⟩), wordInstr_of_ge hge⟩

theorem applyInstr_nextOrRefused {x : Except Refusal Instr} (s : State) (hx : OkOrRefused x) :
    NextOrRefused (applyInstr x s) := by
  obtain hok | ⟨r, hr, rfl⟩ := hx
  · exact .inl (exists_applyInstr_iff.2 hok)
  · exact .inr ⟨r, hr, rfl⟩

theorem applyBoth_nextOrRefused {x y : Except Refusal Instr} (s : State) (hx : OkOrRefused x) (hy : OkOrRefused y) :
    NextOrRefused (applyBoth x y s) := by
  obtain ⟨i, rfl⟩ | ⟨r, hr, rfl⟩ := hx
  · obtain hok | ⟨r, hr, rfl⟩ := hy
    · exact .inl (exists_applyBoth_iff.2 ⟨⟨i, rfl⟩, hok⟩)
    · exact .inr ⟨r, hr, rfl⟩
  · exact .inr ⟨r, hr, rfl⟩

theorem applyLine_nextOrRefused (l : Line) (s : State) : NextOrRefused (applyLine l s) := by
  cases l with
  | word n => exact applyInstr_nextOrRefused s (wordInstr_okOrRefused n)
  | dec d => exact applyInstr_nextOrRefused s (d.instr_okOrRefused s)
  | enc e => exact applyInstr_nextOrRefused s (e.instr_okOrRefused s)
  | atOnce d e => exact applyBoth_nextOrRefused s (d.instr_okOrRefused s) (e.instr_okOrRefused s)
  | driveDecHi a => exact .inl ⟨_, rfl⟩
  | driveDecLo a => exact .inl ⟨_, rfl⟩
  | driveEncV v => exact .inl ⟨_, rfl⟩

theorem step_nextOrRefused (s : State) : NextOrRefused (step s) := by
  cases h : s.program with
  | nil => exact .inl ⟨s, step_nil h⟩
  | cons l rest =>
    rw [step_cons h]
    exact applyLine_nextOrRefused l _

theorem lineReady_iff (s : State) : s.lineReady = true ↔ ∃ t, step s = .next t := by
  cases h : s.program with
  | nil => exact ⟨fun _ => ⟨s, step_nil h⟩, fun _ => by rw [State.lineReady, h]⟩
  | cons l rest =>
    rw [step_cons h, State.lineReady, h]
    exact Line.wellFormed_iff { s with program := rest } l

/-- Settles O32: a step completes or refuses by one of the three names, and it completes exactly on a ready line. -/
theorem stepCompletesExactlyOnWellFormedLines : Obligations.StepCompletesExactlyOnWellFormedLines := by
  refine fun s => ⟨lineReady_iff s, fun hready => ?_⟩
  obtain hnext | ⟨r, hr, hstep⟩ := step_nextOrRefused s
  · simp [(lineReady_iff s).2 hnext] at hready
  · rw [hstep]
    obtain rfl | rfl | ⟨n, hn, rfl⟩ := hr
    · exact .inl rfl
    · exact .inr (.inl rfl)
    · exact .inr (.inr ⟨n, hn, rfl⟩)

end Sys2Proof.Machine
end
